-- ==== Sys2Proof/Word.lean ====
section
/-! DEFINITION. The three plain types every layer uses: a 32-bit word, a string, a finite map. -/

namespace Sys2Proof

/-- A `Word` of rule R19: a 32-bit value, bit 31 most significant. Rule R6 fixes the width. -/
abbrev Word := BitVec 32

/-- A `String` of rule R19: a finite sequence of Unicode scalar values, compared character by
character. Lean's `Char` is exactly a Unicode scalar value (log entry 7). -/
abbrev Text := List Char

/-- A `FinMap K V` of rule R19: a finite partial function, held as the list of its entries. The
operations in `Machine/Maps.lean` keep the list in one canonical form, keys strictly rising, so that
equal maps are equal lists (log entry 8). -/
abbrev FinMap (K V : Type) := List (K × V)

end Sys2Proof
end

