-- ==== Sys2Proof/Config.lean ====
section
/-! DEFINITION. What is fixed for one realisation of the block: the carriers of the opaque types and
the open parameters of the spec (rules R9 to R15), as one constant with no body. -/

namespace Sys2Proof

/-- How many operand types a realisation has beside the first. NO BODY: nothing can be proved of the
number, so that `OperandType` is open (rule R10, log entry 6). -/
opaque Config.furtherOperandTypes : Nat

/-- `OperandType` (rule R10), an open finite type with decidable equality. The model gives no code a
meaning; the source names a first kind, `register`, so there is at least one (log entry 6). -/
structure OperandType where
  code : Fin (Config.furtherOperandTypes + 1)
  deriving DecidableEq, Repr

/-- `SimHandle` (rule R14), the stored simulation callback: an opaque value with decidable equality
that the block stores and returns and never applies (log entry 6). -/
structure SimHandle where
  handle : Nat
  deriving DecidableEq, Repr

/-- `Stmt` (rule R13), one parsed template line: opaque to the block (rule R24, log entry 6). -/
structure Stmt where
  text : Text
  deriving DecidableEq, Repr

/-- `RawSignature` (rule R13), the form in which the configuration document writes an operand-type
signature: opaque to the block (log entry 6). -/
structure RawSignature where
  names : List Text
  deriving DecidableEq, Repr

/-- The four values of `TIE_ORDER` (rule R9). -/
inductive TieOrder where
  | ascUnsigned
  | descUnsigned
  | ascSigned
  | descSigned
  deriving DecidableEq, Repr, Inhabited

/-- The open parameters of the block that its rules read (rules R9, R11, R12, R13, R15). They are
arguments of the step function, not state (rule R20). -/
structure Params where
  /-- `TIE_ORDER`, rule R9; the spec's default is `ascUnsigned`. -/
  tieOrder : TieOrder
  /-- `accepts signatureType givenType`, rule R11: no property is assumed of it. -/
  accepts : OperandType → OperandType → Bool
  /-- What loose mode accepts beyond `accepts`, rule R12; the spec's default is always `true`. -/
  looseExtra : OperandType → OperandType → Bool
  /-- `parseSignature`, rule R13. -/
  parseSignature : RawSignature → Option (List OperandType)
  /-- What `parseTemplate text` makes of a line of the text, given the text, the index of the line and
  the line, rule R13; `none` where the line does not parse (log entry 14). -/
  parseLine : Text → Nat → Text → Option Stmt
  /-- `COLLISION_ROLLBACK`, rule R15; the spec's default is `false`. -/
  collisionRollback : Bool
  deriving Inhabited

/-- `acceptsLoose` (rule R12): every predicate that accepts at least what `accepts` accepts is of
this form, and only those are (log entry 5). -/
def Params.acceptsLoose (P : Params) (sigType given : OperandType) : Bool :=
  P.accepts sigType given || P.looseExtra sigType given

/-- The parameters of the realisation at hand. NO BODY: nothing can be proved of its value, so a
claim about the machine holds for every value of every open parameter (log entry 4). -/
opaque Config.params : Params

end Sys2Proof
end

