-- ==== Sys2Proof/Syntax/Records.lean ====
section
/-! DEFINITION. The records that commands carry and the block stores (rules R21 to R24, R62, R68 to
R70), and the typed command payload (rule R66). -/

namespace Sys2Proof

/-- The format tag of a basic descriptor (rule R62). -/
inductive Format where
  | r
  | i
  | iBranch
  | j
  deriving DecidableEq, Repr

/-- `Proto` (rule R68): a basic definition before its template has been checked. -/
structure Proto where
  mnemonic      : Text
  signature     : List OperandType
  title         : Text
  description   : Text
  format        : Format
  template      : Text
  isControlFlow : Bool
  sim           : SimHandle
  deriving DecidableEq, Repr

/-- `BasicDescriptor` (rule R22). The field the spec calls `match` is `matchBits` here (`match` is a
word of Lean's own). -/
structure BasicDescriptor where
  mnemonic      : Text
  signature     : List OperandType
  title         : Text
  description   : Text
  format        : Format
  template      : Text
  mask          : Word
  matchBits     : Word
  isControlFlow : Bool
  sim           : SimHandle
  deriving DecidableEq, Repr

/-- `ExtendedDescriptor` (rule R24). -/
structure ExtendedDescriptor where
  mnemonic         : Text
  signature        : List OperandType
  title            : Text
  description      : Text
  standardTemplate : List Stmt
  compactTemplate  : Option (List Stmt)
  deriving DecidableEq, Repr

/-- `Descriptor` (rule R20): a basic or an extended descriptor. -/
inductive Descriptor where
  | basic (d : BasicDescriptor)
  | extended (e : ExtendedDescriptor)
  deriving DecidableEq, Repr

/-- `MatchRecord` (rule R70). -/
structure MatchRecord where
  signature    : RawSignature
  standardText : Option Text
  compactText  : Option Text
  title        : Option Text
  description  : Option Text
  deriving DecidableEq, Repr

/-- `GroupRecord` (rule R70): one instruction group of the configuration document. -/
structure GroupRecord where
  mnemonic           : Text
  defaultTitle       : Option Text
  defaultDescription : Option Text
  matchRecords       : List MatchRecord
  deriving DecidableEq, Repr

/-- `CMD.payload` (rules R35, R66): a typed value, as rule R73 has the model take it. -/
inductive Payload where
  | none
  | proto (p : Proto)
  | word (w : Word)
  | ext (e : ExtendedDescriptor)
  | group (g : GroupRecord)
  | query (m : Text) (given : List OperandType)
  | string (t : Text)
  deriving DecidableEq, Repr

/-- What the host puts on the command port: `CMD.code`, 4 bits, and `CMD.payload` (rule R35). This is
the encoded form of a command. -/
structure Command where
  code    : BitVec 4
  payload : Payload
  deriving DecidableEq, Repr

end Sys2Proof
end

