-- ==== Sys2Proof/Syntax.lean ====
section
/-! DEFINITION. The instruction set of the block: the rows of the command table (rule R66). -/

namespace Sys2Proof

/-- A command, one constructor per row of the table of rule R66. -/
inductive Instr where
  /-- code `0000`, reserved; its payload may be anything. -/
  | reserved (payload : Payload)
  | tplCompile (p : Proto)
  | decAdd (p : Proto)
  | decDecode (w : Word)
  | decOperands (w : Word)
  | regBasic (p : Proto)
  | regExt (e : ExtendedDescriptor)
  | regLoadgrp (g : GroupRecord)
  | regPublish
  | regResolve (m : Text) (given : List OperandType)
  | regResolvel (m : Text) (given : List OperandType)
  | regPrefix (p : Text)
  | enumAll
  | enumBasic
  | enumExt
  | logRead
  deriving DecidableEq, Repr

end Sys2Proof
end

