-- ==== Sys2Proof/WellFormed.lean ====
section
/-! DEFINITION. The static checks of the spec: which payload a command code takes (rule R66), which
template is well formed (rule R56), which command carries no malformed record. -/

namespace Sys2Proof

/-- The template alphabet (rules R8, R56): the two literals and the three placeholder letters. -/
def Template.inAlphabet (c : Char) : Bool :=
  c == '0' || c == '1' || c == 'f' || c == 's' || c == 't'

/-- Rule R56: exactly 32 characters, each in the alphabet. -/
def Template.wellFormed (t : Text) : Bool :=
  t.length == 32 && t.all Template.inAlphabet

/-- Rule R118: a group is malformed when its mnemonic is missing, that is, empty. -/
def GroupRecord.wellFormed (g : GroupRecord) : Bool :=
  !g.mnemonic.isEmpty

/-- Rule R66: a command is a code with a payload of the type the code's row names. -/
def Command.wellFormed (c : Command) : Bool :=
  match c.code.toNat, c.payload with
  | 0, _ => true
  | 1, .proto _ => true
  | 2, .proto _ => true
  | 3, .word _ => true
  | 4, .word _ => true
  | 5, .proto _ => true
  | 6, .ext _ => true
  | 7, .group _ => true
  | 8, .none => true
  | 9, .query _ _ => true
  | 10, .query _ _ => true
  | 11, .string _ => true
  | 12, .none => true
  | 13, .none => true
  | 14, .none => true
  | 15, .none => true
  | _, _ => false

/-- A command that carries no malformed record (rules R56, R118). A command that fails this check is
still a command: the block answers it with `ERR` (rule R151). -/
def Instr.wellFormed : Instr → Bool
  | .tplCompile p => Template.wellFormed p.template
  | .decAdd p => Template.wellFormed p.template
  | .regBasic p => Template.wellFormed p.template
  | .regLoadgrp g => g.wellFormed
  | .reserved _ => true
  | .decDecode _ => true
  | .decOperands _ => true
  | .regExt _ => true
  | .regPublish => true
  | .regResolve _ _ => true
  | .regResolvel _ _ => true
  | .regPrefix _ => true
  | .enumAll => true
  | .enumBasic => true
  | .enumExt => true
  | .logRead => true

end Sys2Proof
end

