-- ==== Sys2Proof/Decode.lean ====
section
/-! DEFINITION. From the command port to a command and back (rule R66), and the numbers the spec gives
the closed tags a port carries (rule R62). -/

namespace Sys2Proof

/-- Why a port value is no command. -/
inductive DecodeError where
  /-- The payload is not of the type the code's row names (rule R66). -/
  | mistypedPayload (code : BitVec 4)
  deriving DecidableEq, Repr

/-- `CMD.code` of each command (rule R66). -/
def Instr.code : Instr → BitVec 4
  | .reserved _ => 0b0000#4
  | .tplCompile _ => 0b0001#4
  | .decAdd _ => 0b0010#4
  | .decDecode _ => 0b0011#4
  | .decOperands _ => 0b0100#4
  | .regBasic _ => 0b0101#4
  | .regExt _ => 0b0110#4
  | .regLoadgrp _ => 0b0111#4
  | .regPublish => 0b1000#4
  | .regResolve _ _ => 0b1001#4
  | .regResolvel _ _ => 0b1010#4
  | .regPrefix _ => 0b1011#4
  | .enumAll => 0b1100#4
  | .enumBasic => 0b1101#4
  | .enumExt => 0b1110#4
  | .logRead => 0b1111#4

/-- The command a port value stands for (rule R66). Total: a payload of another type than the code's
row names is refused by name (log entry 1). Code `0000` takes any payload. -/
def decode (c : Command) : Except DecodeError Instr :=
  match c.code.toNat, c.payload with
  | 0, p => .ok (.reserved p)
  | 1, .proto p => .ok (.tplCompile p)
  | 2, .proto p => .ok (.decAdd p)
  | 3, .word w => .ok (.decDecode w)
  | 4, .word w => .ok (.decOperands w)
  | 5, .proto p => .ok (.regBasic p)
  | 6, .ext e => .ok (.regExt e)
  | 7, .group g => .ok (.regLoadgrp g)
  | 8, .none => .ok .regPublish
  | 9, .query m given => .ok (.regResolve m given)
  | 10, .query m given => .ok (.regResolvel m given)
  | 11, .string p => .ok (.regPrefix p)
  | 12, .none => .ok .enumAll
  | 13, .none => .ok .enumBasic
  | 14, .none => .ok .enumExt
  | 15, .none => .ok .logRead
  | _, _ => .error (.mistypedPayload c.code)

/-- `CMD.payload` of each command (rule R66). -/
def Instr.payload : Instr → Payload
  | .reserved p => p
  | .tplCompile p => .proto p
  | .decAdd p => .proto p
  | .decDecode w => .word w
  | .decOperands w => .word w
  | .regBasic p => .proto p
  | .regExt e => .ext e
  | .regLoadgrp g => .group g
  | .regPublish => .none
  | .regResolve m given => .query m given
  | .regResolvel m given => .query m given
  | .regPrefix p => .string p
  | .enumAll => .none
  | .enumBasic => .none
  | .enumExt => .none
  | .logRead => .none

/-- The port value of a command (rule R66). -/
def encode (i : Instr) : Command :=
  { code := i.code, payload := i.payload }

/-- The proto of an operand that is zero throughout: every string and list empty (log entry 2). -/
def Proto.zero : Proto :=
  { mnemonic := [], signature := [], title := [], description := [], format := .r, template := [],
    isControlFlow := false, sim := { handle := 0 } }

/-- The extended descriptor of an operand that is zero throughout (log entry 2). -/
def ExtendedDescriptor.zero : ExtendedDescriptor :=
  { mnemonic := [], signature := [], title := [], description := [], standardTemplate := [],
    compactTemplate := none }

/-- The group record of an operand that is zero throughout (log entry 2). -/
def GroupRecord.zero : GroupRecord :=
  { mnemonic := [], defaultTitle := none, defaultDescription := none, matchRecords := [] }

/-- The payload that is zero throughout, of the type the code's row names (rule R66, log entry 2). -/
def Payload.zero (code : BitVec 4) : Payload :=
  match code.toNat with
  | 1 => .proto Proto.zero
  | 2 => .proto Proto.zero
  | 3 => .word 0
  | 4 => .word 0
  | 5 => .proto Proto.zero
  | 6 => .ext ExtendedDescriptor.zero
  | 7 => .group GroupRecord.zero
  | 9 => .query [] []
  | 10 => .query [] []
  | 11 => .string []
  | _ => .none

/-- The port value of a row of `opcode_table.json`: the four bits the table's mask `0xF` compares are
`CMD.code`, and the payload, to which the table gives no bits, is zero (log entry 2). -/
def tableCommand (w : Nat) : Command :=
  { code := BitVec.ofNat 4 w, payload := Payload.zero (BitVec.ofNat 4 w) }

/-- The command this decoder reads from a row of `opcode_table.json` (log entry 2). The row has one
word of four bits, so `nbits` plays no part. -/
def decodeTableWord (_nbits w : Nat) : Option Instr :=
  match decode (tableCommand w) with
  | .ok i => some i
  | .error _ => none

/-- The number of a format tag on a port (rule R62). -/
def Format.number : Format → Nat
  | .r => 0
  | .i => 1
  | .iBranch => 2
  | .j => 3

end Sys2Proof
end

