-- ==== Sys2Proof/Machine/State.lean ====
section
/-! DEFINITION. The state of the block: the record `S` of rule R20, the command stream it takes its
commands from and the response port (rules R35, R41), and the reasons a step can stop. -/

namespace Sys2Proof.Machine

/-- The phase (rule R31), the block's only flag. -/
inductive Phase where
  | build
  | published
  deriving DecidableEq, Repr

/-- `DiagCode` (rule R71). -/
inductive DiagCode where
  | eTplLength
  | eTplChar
  | eDupPattern
  | eBadGroup
  | eBadMatch
  deriving DecidableEq, Repr

/-- `Diag` (rule R71), one entry of the log. -/
structure Diag where
  code     : DiagCode
  mnemonic : Text
  pos      : Nat
  deriving DecidableEq, Repr

/-- `Group` (rule R25): the basic descriptors that share one mask, keyed by their match. -/
structure Group where
  mask  : Word
  table : FinMap Word BasicDescriptor
  deriving DecidableEq, Repr

/-- The record `S` of rule R20: the whole of what the block stores. -/
structure Block where
  phase  : Phase
  all    : List Descriptor
  basic  : List BasicDescriptor
  ext    : List ExtendedDescriptor
  mnem   : FinMap Text (List Descriptor)
  groups : List Group
  log    : List Diag
  deriving DecidableEq, Repr

/-- `RSP.status` (rule R67). -/
inductive Status where
  | ok
  | none
  | err
  | frozen
  | badcmd
  deriving DecidableEq, Repr

/-- One operand field of a decoded word: its value and its width (rules R60, R61, R95). -/
structure FieldValue where
  value : Nat
  width : Nat
  deriving DecidableEq, Repr

/-- `RSP.payload` (rules R35, R66). -/
inductive RspPayload where
  | none
  | basicDescriptor (d : BasicDescriptor)
  | operands (d : BasicDescriptor) (fields : List FieldValue)
  | loaded (count : Nat) (skipped : List Diag)
  | descriptor (d : Descriptor)
  | descriptors (ds : List Descriptor)
  | basics (ds : List BasicDescriptor)
  | extendeds (es : List ExtendedDescriptor)
  | diag (e : Diag)
  | diags (es : List Diag)
  deriving DecidableEq, Repr

/-- A response (rules R35, R67). -/
structure Response where
  status  : Status
  payload : RspPayload
  deriving DecidableEq, Repr

/-- The state. `blk` is the record `S` of rule R20. `cmds` is the one command stream of rule R41: the
port values the host has still to have answered, the next one first (log entry 3). `rsp` is the
response port of rule R35: the response to the latest command, `none` when no response is pending
(rule R38, log entry 3). -/
structure State where
  blk  : Block
  cmds : List Command
  rsp  : Option Response
  deriving DecidableEq, Repr

/-- The block of rule R38: every field empty, phase `BUILD`. -/
def Block.reset : Block :=
  { phase := .build, all := [], basic := [], ext := [], mnem := [], groups := [], log := [] }

/-- The machine right after reset (rules R38, R170): the empty block, no command taken yet, no
response pending. -/
def State.reset : State :=
  { blk := Block.reset, cmds := [], rsp := none }

/-- A fault. There is none: the block takes no trap and raises no exception (rule R156), and a command
always completes and always responds (rule R42). -/
inductive Fault where
  deriving DecidableEq, Repr

/-- A refusal. -/
inductive Refusal where
  /-- Raised by an arm of `exec` for an instruction without a meaning; no arm raises it. Safe: the
  model stops where the hardware would go on. -/
  | notModelled (mnemonic : String)
  /-- Raised by `step` when the port holds a payload that is not of the type the code's row names
  (rule R66): such a port value is no command of the spec (log entry 1). Safe: the model stops. -/
  | mistypedPayload (code : BitVec 4)
  deriving DecidableEq, Repr

/-- What a step of this machine answers. -/
abbrev Outcome := Host.Outcome State Fault Refusal

/-- What `decAdd` answers (rule R91). -/
inductive AddResult where
  | added
  | dup
  deriving DecidableEq, Repr

end Sys2Proof.Machine
end

