-- ==== Sys2Proof/Machine/Bits.lean ====
section
/-! DEFINITION. Arithmetic on words (rules R19, R58, R90, R99). -/

namespace Sys2Proof.Machine

/-- `popcount` (rules R19, R99): how many of the 32 bits are 1. -/
def popcount (w : Word) : Nat :=
  (List.range 32).countP fun b => w.getLsbD b

/-- `tieLess` (rule R90). -/
def tieLess (tie : TieOrder) (a b : Word) : Bool :=
  match tie with
  | .ascUnsigned => decide (a.toNat < b.toNat)
  | .descUnsigned => decide (b.toNat < a.toNat)
  | .ascSigned => decide (a.toInt < b.toInt)
  | .descSigned => decide (b.toInt < a.toInt)

/-- `before` (rule R90): a group with mask `a` is tried before a group with mask `b`. -/
def before (tie : TieOrder) (a b : Word) : Bool :=
  decide (popcount b < popcount a) || (popcount a == popcount b && tieLess tie a b)

/-- The word with a 1 at bit `31 - i` for each character index `i` (counted from `start`) whose
character satisfies `p` (rules R57, R80). -/
def bitsWhere (p : Char → Bool) (start : Nat) : Text → Word
  | [] => 0
  | c :: cs => (if p c then 1#32 <<< (31 - start) else 0) ||| bitsWhere p (start + 1) cs

/-- `mask` of a template (rule R58): 1 where the character is `0` or `1`. -/
def maskOf (t : Text) : Word :=
  bitsWhere (fun c => c == '0' || c == '1') 0 t

/-- `match` of a template (rule R58): 1 where the character is `1`. -/
def matchOf (t : Text) : Word :=
  bitsWhere (fun c => c == '1') 0 t

/-- `foldCase` (rule R18): `A` to `Z` onto `a` to `z`, every other character to itself. -/
def foldCase (c : Char) : Char :=
  if 65 ≤ c.toNat ∧ c.toNat ≤ 90 then Char.ofNat (c.toNat + 32) else c

/-- `startsWithCI(m, p)` (rule R19). -/
def startsWithCI : Text → Text → Bool
  | _, [] => true
  | [], _ :: _ => false
  | m :: ms, p :: ps => foldCase m == foldCase p && startsWithCI ms ps

end Sys2Proof.Machine
end

