-- ==== Sys2Proof/Machine/Operands.lean ====
section
/-! DEFINITION. The operand fields of an instruction word (rules R60, R61, R95). -/

namespace Sys2Proof.Machine

/-- `bitOf` (rule R57): the bit that character index `i` of a template describes. -/
def bitOf (i : Nat) : Nat :=
  31 - i

/-- The bits that a placeholder class marks, from character index `start` on. -/
def positionsFrom (start : Nat) (c : Char) : Text → List Nat
  | [] => []
  | t :: ts => if t = c then bitOf start :: positionsFrom (start + 1) c ts
               else positionsFrom (start + 1) c ts

/-- `pos(T, c)` (rule R60): the bit numbers of class `c`, descending. -/
def positions (t : Text) (c : Char) : List Nat :=
  positionsFrom 0 c t

/-- `width(T, c)` (rule R60). -/
def fieldWidth (t : Text) (c : Char) : Nat :=
  (positions t c).length

/-- The bits of `w` at the listed positions, gathered, the first one most significant (rule R61). -/
def gatherBits (w : Word) (ps : List Nat) : Nat :=
  ps.foldl (fun acc b => 2 * acc + (w.getLsbD b).toNat) 0

/-- `field(T, c, w)` (rule R61): unsigned, never extended. -/
def fieldOf (t : Text) (c : Char) (w : Word) : Nat :=
  gatherBits w (positions t c)

/-- One entry of the response of DEC.OPERANDS (rule R95). -/
def fieldValue (t : Text) (c : Char) (w : Word) : FieldValue :=
  { value := fieldOf t c w, width := fieldWidth t c }

/-- The three entries of the response of DEC.OPERANDS, in the order of rule R8 (rule R95). -/
def operandFields (t : Text) (w : Word) : List FieldValue :=
  [fieldValue t 'f' w, fieldValue t 's' w, fieldValue t 't' w]

/-- The bits of `v` put back at the listed positions, the first one most significant (rule R95). -/
def spreadBits (v : Nat) : List Nat → Word
  | [] => 0
  | b :: bs => (if v.testBit bs.length then 1#32 <<< b else 0) ||| spreadBits v bs

/-- `scatter` (rule R95): each field's bits put back at the positions of its class. -/
def scatterFields (t : Text) : List FieldValue → Word
  | [f, s, u] =>
    spreadBits f.value (positions t 'f') ||| spreadBits s.value (positions t 's') |||
      spreadBits u.value (positions t 't')
  | _ => 0

end Sys2Proof.Machine
end

