-- ==== Sys2Proof/Machine/Flags.lean ====
section
/-! DEFINITION. The block's one flag, the phase (rule R31), and the numbers of the closed tags on the
response port (rules R35, R67, R71). The block has no condition codes. -/

namespace Sys2Proof.Machine

/-- `PHASE` as one bit (rule R35). -/
def Phase.bit : Phase → BitVec 1
  | .build => 0#1
  | .published => 1#1

/-- `RSP.status` as three bits (rule R67). -/
def Status.bits : Status → BitVec 3
  | .ok => 0#3
  | .none => 1#3
  | .err => 2#3
  | .frozen => 3#3
  | .badcmd => 4#3

/-- The number of a diagnostic code (rule R71). -/
def DiagCode.number : DiagCode → Nat
  | .eTplLength => 1
  | .eTplChar => 2
  | .eDupPattern => 3
  | .eBadGroup => 4
  | .eBadMatch => 5

/-- A population command is refused exactly in phase `PUBLISHED` (rules R31, R162). -/
def Block.frozen (b : Block) : Bool :=
  b.phase == .published

end Sys2Proof.Machine
end

