-- ==== Sys2Proof/Machine/Maps.lean ====
section
/-! DEFINITION. The finite maps of rule R19 as lists of entries, keys strictly rising in an order given
to each operation (log entry 8), and the two key orders the block uses. -/

namespace Sys2Proof.Machine

/-- `m.get(k)` (rule R19). -/
def mapGet {K V : Type} [DecidableEq K] (m : FinMap K V) (k : K) : Option V :=
  match m with
  | [] => none
  | (k', v) :: rest => if k' = k then some v else mapGet rest k

/-- `m.getD(k, d)` (rule R19). -/
def mapGetD {K V : Type} [DecidableEq K] (m : FinMap K V) (k : K) (d : V) : V :=
  (mapGet m k).getD d

/-- `m.set(k, v)` (rule R19); a new key is entered where the order `lt` puts it. -/
def mapSet {K V : Type} [DecidableEq K] (lt : K → K → Bool) (m : FinMap K V) (k : K) (v : V) :
    FinMap K V :=
  match m with
  | [] => [(k, v)]
  | (k', v') :: rest =>
    if k' = k then (k, v) :: rest
    else if lt k k' then (k, v) :: (k', v') :: rest
    else (k', v') :: mapSet lt rest k v

/-- The canonical form: keys strictly rising. -/
def mapCanonical {K V : Type} (lt : K → K → Bool) (m : FinMap K V) : Prop :=
  m.Pairwise fun a b => lt a.1 b.1 = true

/-- The order of the word keys of a group's table: as unsigned numbers. -/
def wordLt (a b : Word) : Bool :=
  decide (a.toNat < b.toNat)

/-- The order of the mnemonic keys: character by character, a proper beginning first. -/
def textLt : Text → Text → Bool
  | [], [] => false
  | [], _ :: _ => true
  | _ :: _, [] => false
  | a :: as, b :: bs => decide (a.toNat < b.toNat) || (a == b && textLt as bs)

end Sys2Proof.Machine
end

