-- ==== Sys2Proof/Machine/Ops.lean ====
section
/-! DEFINITION. The shared operations: fetching a command, answering it, the log, and the functions
`compile`, `decAdd`, `decode`, `regBasic`, `regExt`, `resolveWith` of the spec. Each takes the open
parameters it reads as arguments. The block takes no exception (rule R156): an error is a diagnostic
logged and an `ERR` answered, said once in `failWith`. -/

namespace Sys2Proof.Machine

/-! ### The ports -/

/-- Take the next command off the stream (rule R41); nothing when the host has given none. -/
def fetch (s : State) : Option (Command × State) :=
  match s.cmds with
  | [] => none
  | c :: rest => some (c, { s with cmds := rest })

/-- Put a command where the next step fetches it: at the head of the stream. -/
def placeCommand (c : Command) (s : State) : State :=
  { s with cmds := c :: s.cmds }

/-- End a command (rules R19, R42): the block it leaves and the one response it gives. -/
def State.complete (s : State) (b : Block) (r : Response) : State :=
  { s with blk := b, rsp := some r }

/-- `respond Status(payload)` with a new block content. -/
def respondWith (s : State) (b : Block) (st : Status) (p : RspPayload) : Outcome :=
  .next (s.complete b { status := st, payload := p })

/-- `respond Status(payload)` by a command that writes nothing (rule R45). -/
def respond (s : State) (st : Status) (p : RspPayload) : Outcome :=
  respondWith s s.blk st p

/-! ### The log -/

/-- `log d` (rules R19, R34). -/
def Block.addDiag (b : Block) (e : Diag) : Block :=
  { b with log := b.log ++ [e] }

/-- A registration-time error (rule R151): one diagnostic logged, `ERR` answered with it. -/
def failWith (s : State) (e : Diag) : Outcome :=
  respondWith s (s.blk.addDiag e) .err (.diag e)

/-- The diagnostic of a collision (rules R71, R91). -/
def dupDiag (d : BasicDescriptor) : Diag :=
  { code := .eDupPattern, mnemonic := d.mnemonic, pos := 0 }

/-! ### Template compilation -/

/-- The basic descriptor of a proto whose template is well formed (rule R80). -/
def descriptorOf (p : Proto) : BasicDescriptor :=
  { mnemonic := p.mnemonic, signature := p.signature, title := p.title,
    description := p.description, format := p.format, template := p.template,
    mask := maskOf p.template, matchBits := matchOf p.template,
    isControlFlow := p.isControlFlow, sim := p.sim }

/-- The index of the first character outside the alphabet, counted from `start` (rule R80). -/
def firstBadChar (start : Nat) : Text → Option Nat
  | [] => none
  | c :: cs => if Template.inAlphabet c then firstBadChar (start + 1) cs else some start

/-- `compile` (rule R80): length first, then the characters from index 0. -/
def compile (p : Proto) : Except Diag BasicDescriptor :=
  if p.template.length ≠ 32 then
    .error { code := .eTplLength, mnemonic := p.mnemonic, pos := p.template.length }
  else
    match firstBadChar 0 p.template with
    | some i => .error { code := .eTplChar, mnemonic := p.mnemonic, pos := i }
    | none => .ok (descriptorOf p)

/-! ### The decoder -/

/-- `first g in S.groups such that g.mask = m` (rule R91). -/
def findGroup (gs : List Group) (m : Word) : Option Group :=
  gs.find? fun g => g.mask == m

/-- Enter a new group at the one position that keeps the priority order (rules R26, R91). -/
def insertGroup (tie : TieOrder) (g : Group) : List Group → List Group
  | [] => [g]
  | h :: rest => if before tie h.mask g.mask then h :: insertGroup tie g rest else g :: h :: rest

/-- Put a group's new content in the place of the group of the same mask (rule R91). -/
def replaceGroup (g : Group) : List Group → List Group
  | [] => []
  | h :: rest => if h.mask = g.mask then g :: rest else h :: replaceGroup g rest

/-- Enter a descriptor in the groups: in the group of its mask, created if absent (rule R91). -/
def enterPattern (tie : TieOrder) (d : BasicDescriptor) (gs : List Group) : List Group :=
  match findGroup gs d.mask with
  | none => insertGroup tie { mask := d.mask, table := mapSet wordLt [] d.matchBits d } gs
  | some g => replaceGroup { g with table := mapSet wordLt g.table d.matchBits d } gs

/-- The descriptor the decoder holds under a (mask, match) pair. -/
def entryAt (gs : List Group) (m k : Word) : Option BasicDescriptor :=
  match findGroup gs m with
  | none => none
  | some g => mapGet g.table k

/-- `decAdd` (rule R91): a collision is a (mask, match) pair already present; the first is kept. -/
def decAdd (tie : TieOrder) (d : BasicDescriptor) (b : Block) : AddResult × Block :=
  match entryAt b.groups d.mask d.matchBits with
  | some _ => (.dup, b.addDiag (dupDiag d))
  | none => (.added, { b with groups := enterPattern tie d b.groups })

/-- `decode` of rule R93: the first group, in list order, that holds the masked word. -/
def decodeWord (gs : List Group) (w : Word) : Option BasicDescriptor :=
  match gs with
  | [] => none
  | g :: rest =>
    match mapGet g.table (w &&& g.mask) with
    | some d => some d
    | none => decodeWord rest w

/-! ### The registry -/

/-- `mnemonicOf` (rule R21). -/
def mnemonicOf : Descriptor → Text
  | .basic d => d.mnemonic
  | .extended e => e.mnemonic

/-- `signatureOf` (rule R21). -/
def signatureOf : Descriptor → List OperandType
  | .basic d => d.signature
  | .extended e => e.signature

/-- Append a descriptor to the overload list of its mnemonic (rules R28, R110, R112). -/
def indexMnemonic (d : Descriptor) (m : FinMap Text (List Descriptor)) :
    FinMap Text (List Descriptor) :=
  mapSet textLt m (mnemonicOf d) (mapGetD m (mnemonicOf d) [] ++ [d])

/-- Append a basic descriptor to the registry's indices (rule R110). -/
def Block.addBasic (b : Block) (d : BasicDescriptor) : Block :=
  { b with all := b.all ++ [.basic d], basic := b.basic ++ [d],
           mnem := indexMnemonic (.basic d) b.mnem }

/-- `regExt` (rule R112). -/
def regExt (e : ExtendedDescriptor) (b : Block) : Block :=
  { b with all := b.all ++ [.extended e], ext := b.ext ++ [e],
           mnem := indexMnemonic (.extended e) b.mnem }

/-- `regBasic` (rule R110). -/
def regBasic (tie : TieOrder) (rollback : Bool) (d : BasicDescriptor) (b : Block) :
    AddResult × Block :=
  match decAdd tie d b with
  | (.dup, b') => if rollback then (.dup, b') else (.dup, b'.addBasic d)
  | (.added, b') => (.added, b'.addBasic d)

/-- `sigAccepts` (rule R130): equal arity, and every position accepted. -/
def sigAccepts (accepts : OperandType → OperandType → Bool) :
    List OperandType → List OperandType → Bool
  | [], [] => true
  | s :: ss, g :: gs => accepts s g && sigAccepts accepts ss gs
  | _, _ => false

/-- `resolveWith` (rule R131). -/
def resolveWith (accepts : OperandType → OperandType → Bool) (m : Text) (given : List OperandType)
    (b : Block) : Option Descriptor :=
  match mapGet b.mnem m with
  | none => none
  | some ds => ds.find? fun d => sigAccepts accepts (signatureOf d) given

end Sys2Proof.Machine
end

