-- ==== Sys2Proof/Machine/Decoder.lean ====
section
/-! DEFINITION. The decoder family (rules R92, R94, R95). -/

namespace Sys2Proof.Machine

/-- DEC.ADD (rule R92), with its parameter. -/
def decAddWith (tie : TieOrder) (p : Proto) (s : State) : Outcome :=
  if s.blk.frozen then respond s .frozen .none
  else
    match compile p with
    | .error e => failWith s e
    | .ok d =>
      match decAdd tie d s.blk with
      | (.added, b) => respondWith s b .ok .none
      | (.dup, b) => respondWith s b .err (.diag (dupDiag d))

/-- DEC.ADD (rule R92). -/
def execDecAdd (p : Proto) (s : State) : Outcome :=
  decAddWith Config.params.tieOrder p s

/-- DEC.DECODE (rule R94). -/
def execDecDecode (w : Word) (s : State) : Outcome :=
  match decodeWord s.blk.groups w with
  | some d => respond s .ok (.basicDescriptor d)
  | none => respond s .none .none

/-- DEC.OPERANDS (rule R95). -/
def execDecOperands (w : Word) (s : State) : Outcome :=
  match decodeWord s.blk.groups w with
  | some d => respond s .ok (.operands d (operandFields d.template w))
  | none => respond s .none .none

end Sys2Proof.Machine
end

