-- ==== Sys2Proof/Machine/Lookup.lean ====
section
/-! DEFINITION. Registry lookup, the enumerations and the log reader (rules R132 to R138). -/

namespace Sys2Proof.Machine

/-- The answer of a resolution (rules R132, R133). -/
def resolveBy (accepts : OperandType → OperandType → Bool) (m : Text) (given : List OperandType)
    (s : State) : Outcome :=
  match resolveWith accepts m given s.blk with
  | some d => respond s .ok (.descriptor d)
  | none => respond s .none .none

/-- REG.RESOLVE, strict mode (rule R132). -/
def execRegResolve (m : Text) (given : List OperandType) (s : State) : Outcome :=
  resolveBy Config.params.accepts m given s

/-- REG.RESOLVEL, loose mode (rule R133). -/
def execRegResolvel (m : Text) (given : List OperandType) (s : State) : Outcome :=
  resolveBy Config.params.acceptsLoose m given s

/-- `prefixSearch` (rule R134), in registration order. -/
def prefixSearch (p : Text) (b : Block) : List Descriptor :=
  b.all.filter fun d => startsWithCI (mnemonicOf d) p

/-- REG.PREFIX (rule R134). -/
def execRegPrefix (p : Text) (s : State) : Outcome :=
  respond s .ok (.descriptors (prefixSearch p s.blk))

/-- ENUM.ALL (rule R135). -/
def execEnumAll (s : State) : Outcome :=
  respond s .ok (.descriptors s.blk.all)

/-- ENUM.BASIC (rule R136). -/
def execEnumBasic (s : State) : Outcome :=
  respond s .ok (.basics s.blk.basic)

/-- ENUM.EXT (rule R137). -/
def execEnumExt (s : State) : Outcome :=
  respond s .ok (.extendeds s.blk.ext)

/-- LOG.READ (rule R138): reading does not clear the log. -/
def execLogRead (s : State) : Outcome :=
  respond s .ok (.diags s.blk.log)

end Sys2Proof.Machine
end

