-- ==== Sys2Proof/Machine/Population.lean ====
section
/-! DEFINITION. Registry population (rules R111, R113, R118 to R120). -/

namespace Sys2Proof.Machine

/-- REG.BASIC (rule R111), with its parameters. -/
def regBasicWith (tie : TieOrder) (rollback : Bool) (p : Proto) (s : State) : Outcome :=
  if s.blk.frozen then respond s .frozen .none
  else
    match compile p with
    | .error e => failWith s e
    | .ok d =>
      match regBasic tie rollback d s.blk with
      | (.added, b) => respondWith s b .ok .none
      | (.dup, b) => respondWith s b .err (.diag (dupDiag d))

/-- REG.BASIC (rule R111). -/
def execRegBasic (p : Proto) (s : State) : Outcome :=
  regBasicWith Config.params.tieOrder Config.params.collisionRollback p s

/-- REG.EXT (rule R113). -/
def execRegExt (e : ExtendedDescriptor) (s : State) : Outcome :=
  if s.blk.frozen then respond s .frozen .none
  else respondWith s (regExt e s.blk) .ok .none

/-- The newline-separated lines of an expansion text, in order (rule R13, log entry 14). -/
def textLines : Text → List Text
  | [] => [[]]
  | c :: cs =>
    if c = '\n' then [] :: textLines cs
    else
      match textLines cs with
      | [] => [[c]]
      | line :: rest => (c :: line) :: rest

/-- The statements of the lines of `text` from index `i` on: one for each line, in order, and none at
all when one of the lines does not parse (rule R13). -/
def parseLines (P : Params) (text : Text) (i : Nat) : List Text → Option (List Stmt)
  | [] => some []
  | line :: rest =>
    match P.parseLine text i line, parseLines P text (i + 1) rest with
    | some x, some xs => some (x :: xs)
    | _, _ => none

/-- `parseTemplate` (rule R13): one `Stmt` per line, in order (log entry 14). -/
def parseTemplate (P : Params) (text : Text) : Option (List Stmt) :=
  parseLines P text 0 (textLines text)

/-- The standard expansion of a match (rule R118): it must be present and parse. -/
def parseStandard (P : Params) (m : MatchRecord) : Option (List Stmt) :=
  match m.standardText with
  | none => none
  | some t => parseTemplate P t

/-- The compact expansion of a match (rule R118): absent, or present and it must parse. -/
def parseCompact (P : Params) (m : MatchRecord) : Option (Option (List Stmt)) :=
  match m.compactText with
  | none => some none
  | some t =>
    match parseTemplate P t with
    | none => none
    | some l => some (some l)

/-- The extended descriptor of a match of group `g`, `none` when the match is malformed (rules R118,
R119). -/
def buildMatch (P : Params) (g : GroupRecord) (m : MatchRecord) : Option ExtendedDescriptor :=
  match P.parseSignature m.signature, parseStandard P m, parseCompact P m with
  | some sig, some std, some cmp =>
    some { mnemonic := g.mnemonic, signature := sig,
           title := m.title.getD (g.defaultTitle.getD []),
           description := m.description.getD (g.defaultDescription.getD []),
           standardTemplate := std, compactTemplate := cmp }
  | _, _, _ => none

/-- What the loop of rule R118 carries: the count `n`, the list `ds` and the block. -/
structure LoadAcc where
  count   : Nat
  skipped : List Diag
  blk     : Block
  deriving DecidableEq, Repr

/-- The loop of rule R118 over the matches, in document order, from index `i` on. -/
def loadMatches (P : Params) (g : GroupRecord) (i : Nat) (acc : LoadAcc) :
    List MatchRecord → LoadAcc
  | [] => acc
  | m :: ms =>
    match buildMatch P g m with
    | none =>
      let e : Diag := { code := .eBadMatch, mnemonic := g.mnemonic, pos := i }
      loadMatches P g (i + 1)
        { acc with skipped := acc.skipped ++ [e], blk := acc.blk.addDiag e } ms
    | some e =>
      loadMatches P g (i + 1) { acc with count := acc.count + 1, blk := regExt e acc.blk } ms

/-- REG.LOADGRP (rule R118), with its parameters. -/
def regLoadgrpWith (P : Params) (g : GroupRecord) (s : State) : Outcome :=
  if s.blk.frozen then respond s .frozen .none
  else if g.mnemonic.isEmpty then
    failWith s { code := .eBadGroup, mnemonic := [], pos := 0 }
  else
    let r := loadMatches P g 0 { count := 0, skipped := [], blk := s.blk } g.matchRecords
    respondWith s r.blk .ok (.loaded r.count r.skipped)

/-- REG.LOADGRP (rule R118). -/
def execRegLoadgrp (g : GroupRecord) (s : State) : Outcome :=
  regLoadgrpWith Config.params g s

/-- REG.PUBLISH (rule R120): idempotent, never refused. -/
def execRegPublish (s : State) : Outcome :=
  respondWith s { s.blk with phase := .published } .ok .none

end Sys2Proof.Machine
end

