-- ==== Sys2Proof/Machine/Template.lean ====
section
/-! DEFINITION. The reserved code and template compilation (rules R81, R162). -/

namespace Sys2Proof.Machine

/-- Code `0000` (rules R158, R162): `BADCMD` in either phase, nothing else is looked at. -/
def execReserved (_payload : Payload) (s : State) : Outcome :=
  respond s .badcmd .none

/-- TPL.COMPILE (rule R81): the diagnostic is returned, not logged. -/
def execTplCompile (p : Proto) (s : State) : Outcome :=
  match compile p with
  | .ok d => respond s .ok (.basicDescriptor d)
  | .error e => respond s .err (.diag e)

end Sys2Proof.Machine
end

