-- ==== Sys2Proof/Machine/Dispatch.lean ====
section
/-! DEFINITION. One arm per command of the table of rule R66. -/

namespace Sys2Proof.Machine

def exec (i : Instr) (s : State) : Host.Outcome State Fault Refusal :=
  match i with
  | .reserved payload => Sys2Proof.Machine.execReserved payload s
  | .tplCompile p => Sys2Proof.Machine.execTplCompile p s
  | .decAdd p => Sys2Proof.Machine.execDecAdd p s
  | .decDecode w => Sys2Proof.Machine.execDecDecode w s
  | .decOperands w => Sys2Proof.Machine.execDecOperands w s
  | .regBasic p => Sys2Proof.Machine.execRegBasic p s
  | .regExt e => Sys2Proof.Machine.execRegExt e s
  | .regLoadgrp g => Sys2Proof.Machine.execRegLoadgrp g s
  | .regPublish => Sys2Proof.Machine.execRegPublish s
  | .regResolve m given => Sys2Proof.Machine.execRegResolve m given s
  | .regResolvel m given => Sys2Proof.Machine.execRegResolvel m given s
  | .regPrefix p => Sys2Proof.Machine.execRegPrefix p s
  | .enumAll => Sys2Proof.Machine.execEnumAll s
  | .enumBasic => Sys2Proof.Machine.execEnumBasic s
  | .enumExt => Sys2Proof.Machine.execEnumExt s
  | .logRead => Sys2Proof.Machine.execLogRead s

end Sys2Proof.Machine
end

