-- ==== Sys2Proof/Machine/Step.lean ====
section
/-! DEFINITION. One step of the block: take the next command, perform it, respond (rules R41, R42). -/

namespace Sys2Proof.Machine

/-- One step (rules R41, R42, R171). With no command in the stream the block is quiescent. -/
def step (s : State) : Host.Outcome State Fault Refusal :=
  match fetch s with
  | none => .next s
  | some (c, s') =>
    match decode c with
    | .ok i => exec i s'
    | .error (.mistypedPayload code) => .refused (.mistypedPayload code)

/-- The state with a row of `opcode_table.json` placed where the next step fetches its command (log
entries 2 and 3). The row has one word of four bits, so `nbits` plays no part. -/
def State.withFetchWord (s : State) (_nbits w : Nat) : State :=
  placeCommand (tableCommand w) s

end Sys2Proof.Machine
end

