-- ==== Sys2Proof/Machine/Boot.lean ====
section
/-! DEFINITION. The boot sequence (rules R16, R172, R173): how a catalogue becomes a command stream. -/

namespace Sys2Proof.Machine

/-- A member of a catalogue (rule R16): a basic proto or a group of the configuration document. -/
inductive CatalogEntry where
  | basic (p : Proto)
  | group (g : GroupRecord)
  deriving DecidableEq, Repr

/-- A catalogue (rule R16): the ordered list of the population commands, in the order the boot agent
issues them. -/
structure Catalog where
  entries : List CatalogEntry
  deriving DecidableEq, Repr, Inhabited

/-- The population command of a member of a catalogue (rules R16, R173). -/
def CatalogEntry.command : CatalogEntry → Instr
  | .basic p => .regBasic p
  | .group g => .regLoadgrp g

/-- The proto of a member of a catalogue, if it is one. -/
def CatalogEntry.asProto : CatalogEntry → Option Proto
  | .basic p => some p
  | .group _ => none

/-- The group of a member of a catalogue, if it is one. -/
def CatalogEntry.asGroup : CatalogEntry → Option GroupRecord
  | .basic _ => none
  | .group g => some g

/-- The basic protos of a catalogue, in its order. -/
def Catalog.protos (c : Catalog) : List Proto :=
  c.entries.filterMap CatalogEntry.asProto

/-- The groups of a catalogue, in its order. -/
def Catalog.groups (c : Catalog) : List GroupRecord :=
  c.entries.filterMap CatalogEntry.asGroup

/-- The catalogue with its basic protos first and its groups after them, the order of rule R173. -/
def Catalog.basicsFirst (c : Catalog) : Catalog :=
  { entries := c.protos.map .basic ++ c.groups.map .group }

/-- `CATALOG` (rule R16), an open parameter: no body, so nothing can be proved of its content (log
entry 4). -/
opaque bootCatalog : Catalog

/-- The commands the boot agent issues: one REG.BASIC per proto and one REG.LOADGRP per group, in the
order of the catalogue, then one REG.PUBLISH (rules R16, R173). The order of rule R173 is that of a
catalogue that stands basics first; another order is the catalogue's to state (log entry 13). -/
def bootCommands (c : Catalog) : List Instr :=
  c.entries.map CatalogEntry.command ++ [.regPublish]

/-- The reset state with the boot agent's commands on the stream (rules R171, R173). -/
def bootState (c : Catalog) : State :=
  { State.reset with cmds := (bootCommands c).map encode }

/-- The state from which a realisation with the catalogue at hand boots. -/
def State.boot : State :=
  bootState bootCatalog

end Sys2Proof.Machine
end

