-- ==== Sys2Proof/Safety.lean ====
section
/-! DEFINITION. What the spec promises of every state (rules R22, R25, R26, R28, R29, R71), what no run
may lose (rule R39), and the terms the claims use. -/

namespace Sys2Proof.Machine

/-! ### The invariants of the state -/

/-- Rule R22: every basic descriptor anywhere in the block comes from `compile`. -/
structure DescriptorOk (d : BasicDescriptor) : Prop where
  template : Template.wellFormed d.template = true
  mask : d.mask = maskOf d.template
  matchBits : d.matchBits = matchOf d.template
  within : d.mask &&& d.matchBits = d.matchBits

/-- Rules R25, R26 (b): a group's table is not empty, in canonical form, and each entry lies under its
own mask and match. -/
structure GroupOk (g : Group) : Prop where
  nonempty : g.table ≠ []
  canonical : mapCanonical wordLt g.table
  entries : ∀ e ∈ g.table, e.2.mask = g.mask ∧ e.2.matchBits = e.1 ∧ DescriptorOk e.2

/-- Rule R26: the masks are distinct and the list is in priority order. -/
structure GroupsOk (tie : TieOrder) (gs : List Group) : Prop where
  distinct : (gs.map Group.mask).Nodup
  sorted : gs.Pairwise fun g h => before tie g.mask h.mask = true
  each : ∀ g ∈ gs, GroupOk g

/-- The basic descriptor in a descriptor, if it is one. -/
def asBasic : Descriptor → Option BasicDescriptor
  | .basic d => some d
  | .extended _ => none

/-- The extended descriptor in a descriptor, if it is one. -/
def asExtended : Descriptor → Option ExtendedDescriptor
  | .basic _ => none
  | .extended e => some e

/-- Rules R22, R28, R29: the three indices are functions of `S.all`; a key of the mnemonic map is
present only if its list is not empty; and the pattern of every basic descriptor is in the decoder,
under itself or under the first that collided with it (rule R110). -/
structure RegistryOk (b : Block) : Prop where
  basic : b.basic = b.all.filterMap asBasic
  ext : b.ext = b.all.filterMap asExtended
  mnem : ∀ m, mapGetD b.mnem m [] = b.all.filter fun d => mnemonicOf d == m
  present : ∀ m ds, mapGet b.mnem m = some ds → ds ≠ []
  canonical : mapCanonical textLt b.mnem
  descriptors : ∀ d ∈ b.basic, DescriptorOk d
  patterns : ∀ d ∈ b.basic, (entryAt b.groups d.mask d.matchBits).isSome = true

/-- Rule R71: what the fields of a diagnostic of each code hold. -/
def DiagOk (e : Diag) : Prop :=
  match e.code with
  | .eTplLength => e.pos ≠ 32
  | .eTplChar => e.pos < 32
  | .eDupPattern => e.pos = 0
  | .eBadGroup => e.mnemonic = [] ∧ e.pos = 0
  | .eBadMatch => e.mnemonic ≠ []

/-- The invariant of the block under a tie order. -/
structure BlockInv (tie : TieOrder) (b : Block) : Prop where
  groups : GroupsOk tie b.groups
  registry : RegistryOk b
  log : ∀ e ∈ b.log, DiagOk e

/-- The invariant of the machine: that of its block, under the tie order of the realisation. -/
def State.Inv (s : State) : Prop :=
  BlockInv Config.params.tieOrder s.blk

/-! ### What a run never loses -/

/-- Rule R39: nothing stored is changed or lost, and a published block stays as it is. -/
structure Grows (b b' : Block) : Prop where
  all : b.all <+: b'.all
  basic : b.basic <+: b'.basic
  ext : b.ext <+: b'.ext
  mnem : ∀ m, mapGetD b.mnem m [] <+: mapGetD b'.mnem m []
  log : b.log <+: b'.log
  groups : ∀ g ∈ b.groups, ∃ g' ∈ b'.groups, g'.mask = g.mask ∧
    ∀ k d, mapGet g.table k = some d → mapGet g'.table k = some d
  published : b.phase = .published → b' = b

/-! ### Terms of the claims -/

/-- A word matches a descriptor (rule R59). -/
def matchesWord (d : BasicDescriptor) (w : Word) : Prop :=
  w &&& d.mask = d.matchBits

/-- `d` is an entry of some group (rules R25, R96). -/
def isEntry (gs : List Group) (d : BasicDescriptor) : Prop :=
  ∃ g ∈ gs, ∃ k, (k, d) ∈ g.table

/-- Two entries are compatible when some word can match both (rule R97). -/
def compatible (d d' : BasicDescriptor) : Prop :=
  (d.matchBits ^^^ d'.matchBits) &&& d.mask &&& d'.mask = 0

/-- `tieFree` (rule R97): no two entries in different groups of equal popcount are compatible. -/
def tieFree (gs : List Group) : Prop :=
  ∀ g ∈ gs, ∀ h ∈ gs, g.mask ≠ h.mask → popcount g.mask = popcount h.mask →
    ∀ e ∈ g.table, ∀ f ∈ h.table, ¬ compatible e.2 f.2

/-- Rule R130: equal arity, and every position accepted. -/
def signatureAccepts (accepts : OperandType → OperandType → Bool) (given : List OperandType)
    (d : Descriptor) : Prop :=
  List.Forall₂ (fun a b => accepts a b = true) (signatureOf d) given

/-- `d` is the first of `ds` whose signature accepts the given types (rule R131). -/
def firstAccepting (accepts : OperandType → OperandType → Bool) (given : List OperandType)
    (ds : List Descriptor) (d : Descriptor) : Prop :=
  ∃ front back, ds = front ++ d :: back ∧ signatureAccepts accepts given d ∧
    ∀ x ∈ front, ¬ signatureAccepts accepts given x

/-- No signature of `ds` accepts the given types (rule R131). -/
def noneAccepting (accepts : OperandType → OperandType → Bool) (given : List OperandType)
    (ds : List Descriptor) : Prop :=
  ∀ x ∈ ds, ¬ signatureAccepts accepts given x

/-- The descriptors that a member of a catalogue registers where a collision is kept (rules R111,
R118). -/
def registeredBy (P : Params) : CatalogEntry → List Descriptor
  | .basic p =>
    match compile p with
    | .ok d => [.basic d]
    | .error _ => []
  | .group g =>
    if g.mnemonic.isEmpty then []
    else (g.matchRecords.filterMap (buildMatch P g)).map .extended

/-- The decoder's groups after adding the descriptors, in order, to the empty decoder (rules R91,
R101). -/
def decoderOf (tie : TieOrder) (ds : List BasicDescriptor) : List Group :=
  (ds.foldl (fun b d => (decAdd tie d b).2) Block.reset).groups

end Sys2Proof.Machine

namespace Sys2Proof

/-- The four commands that rule R162 refuses after publish. -/
def Instr.refusedWhenPublished : Instr → Bool
  | .decAdd _ => true
  | .regBasic _ => true
  | .regExt _ => true
  | .regLoadgrp _ => true
  | .reserved _ => false
  | .tplCompile _ => false
  | .decDecode _ => false
  | .decOperands _ => false
  | .regPublish => false
  | .regResolve _ _ => false
  | .regResolvel _ _ => false
  | .regPrefix _ => false
  | .enumAll => false
  | .enumBasic => false
  | .enumExt => false
  | .logRead => false

/-- The lookup commands (rules R45, R66). -/
def Instr.isLookup : Instr → Bool
  | .tplCompile _ => true
  | .decDecode _ => true
  | .decOperands _ => true
  | .regResolve _ _ => true
  | .regResolvel _ _ => true
  | .regPrefix _ => true
  | .enumAll => true
  | .enumBasic => true
  | .enumExt => true
  | .logRead => true
  | .reserved _ => false
  | .decAdd _ => false
  | .regBasic _ => false
  | .regExt _ => false
  | .regLoadgrp _ => false
  | .regPublish => false

end Sys2Proof
end

