-- ==== Sys2Proof/Certificates/Slice0/Obligations.lean ====
section
/-! DEFINITION. The statements for the provers, from the numbered rules of the spec. Each conclusion
about a command is that `exec` answers a next state and which one: `{ s with blk := …, rsp := … }` is
the frame, everything not named is unchanged. -/

open Sys2Proof Sys2Proof.Machine

/-! ### The command port -/

/-- Rule R66: a port value stands for a command exactly when it is that command's code and payload.
Both directions: no field of a command is dropped, and a port value has one reading. The codes are the
spec's decision D1. -/
def Obligations.DecodeReadsExactlyWhatEncodeWrites : Prop :=
  ∀ (i : Instr) (c : Command), decode c = .ok i ↔ encode i = c

/-- The table of rule R66 gives each code one payload type. That a port value with another type is
refused by name, and stops the step, is the model's choice (log entry 1). -/
def Obligations.DecodeRefusesExactlyTheMistypedPayloads : Prop :=
  ∀ c : Command,
    ((∃ i, decode c = .ok i) ↔ c.wellFormed = true) ∧
    (c.wellFormed = false → decode c = .error (.mistypedPayload c.code) ∧
      ∀ (s : State) (rest : List Command), s.cmds = c :: rest →
        step s = .refused (.mistypedPayload c.code))

/-- The sixteen codes of rule R66 (the spec's decision D1), written out, each with the zero payload of
log entry 2. -/
def Obligations.CommandTableWordsDecode : Prop :=
  decodeTableWord 8 0b0000 = some (.reserved .none) ∧
  decodeTableWord 8 0b0001 = some (.tplCompile Proto.zero) ∧
  decodeTableWord 8 0b0010 = some (.decAdd Proto.zero) ∧
  decodeTableWord 8 0b0011 = some (.decDecode 0) ∧
  decodeTableWord 8 0b0100 = some (.decOperands 0) ∧
  decodeTableWord 8 0b0101 = some (.regBasic Proto.zero) ∧
  decodeTableWord 8 0b0110 = some (.regExt ExtendedDescriptor.zero) ∧
  decodeTableWord 8 0b0111 = some (.regLoadgrp GroupRecord.zero) ∧
  decodeTableWord 8 0b1000 = some .regPublish ∧
  decodeTableWord 8 0b1001 = some (.regResolve [] []) ∧
  decodeTableWord 8 0b1010 = some (.regResolvel [] []) ∧
  decodeTableWord 8 0b1011 = some (.regPrefix []) ∧
  decodeTableWord 8 0b1100 = some .enumAll ∧
  decodeTableWord 8 0b1101 = some .enumBasic ∧
  decodeTableWord 8 0b1110 = some .enumExt ∧
  decodeTableWord 8 0b1111 = some .logRead

/-- Rule R41: a step takes the next command off the stream and runs it on what is left (the stream as
a field of the state is log entry 3). -/
def Obligations.StepRunsTheNextCommandOfTheStream : Prop :=
  ∀ (s : State) (c : Command) (rest : List Command) (i : Instr),
    s.cmds = c :: rest → decode c = .ok i → step s = exec i { s with cmds := rest }

/-- Rule R171: between two commands the block is quiescent. -/
def Obligations.StepWithoutACommandIsQuiescent : Prop :=
  ∀ s : State, s.cmds = [] → step s = .next s

/-- What is placed where the step fetches is what the very next step runs (log entry 2). -/
def Obligations.APlacedTableWordRunsNext : Prop :=
  ∀ (s : State) (nbits w : Nat) (i : Instr), decodeTableWord nbits w = some i →
    step (s.withFetchWord nbits w) = exec i s

/-! ### Reset and the invariant -/

/-- Rules R38, R172: what reset leaves, and what the lookups answer then. The empty values are the
spec's decision D15. -/
def Obligations.ResetLeavesAnEmptyBlockInPhaseBuild : Prop :=
  State.reset.blk.phase = .build ∧ State.reset.blk.all = [] ∧ State.reset.blk.basic = [] ∧
  State.reset.blk.ext = [] ∧ State.reset.blk.mnem = [] ∧ State.reset.blk.groups = [] ∧
  State.reset.blk.log = [] ∧ State.reset.rsp = none ∧
  (∀ w, exec (.decDecode w) State.reset =
    .next { State.reset with rsp := some ⟨.none, .none⟩ }) ∧
  (∀ m given, exec (.regResolve m given) State.reset =
    .next { State.reset with rsp := some ⟨.none, .none⟩ }) ∧
  (∀ p, exec (.regPrefix p) State.reset =
    .next { State.reset with rsp := some ⟨.ok, .descriptors []⟩ })

/-- The invariant of rules R22, R25, R26, R28, R29 and R71 holds right after reset. -/
def Obligations.ResetSatisfiesTheInvariant : Prop :=
  State.reset.Inv

/-- Rules R22, R25, R26, R28, R29, R71: every step keeps the invariant, from every state that has it. -/
def Obligations.EveryStepKeepsTheInvariant : Prop :=
  ∀ s t : State, s.Inv → step s = .next t → t.Inv

/-! ### Template compilation -/

/-- Rule R58: every well-formed template compiles (that clause is rule R80's), and its mask and match
are read off its characters, character `i` giving bit `31 - i`. -/
def Obligations.MaskAndMatchAreReadOffTheTemplate : Prop :=
  ∀ p : Proto, p.template.length = 32 →
    (∀ x ∈ p.template, x = '0' ∨ x = '1' ∨ x = 'f' ∨ x = 's' ∨ x = 't') →
    ∃ d, compile p = .ok d ∧ d.template = p.template ∧ ∀ i < 32,
      d.mask.getLsbD (31 - i) = decide (p.template[i]? = some '0' ∨ p.template[i]? = some '1') ∧
      d.matchBits.getLsbD (31 - i) = decide (p.template[i]? = some '1')

/-- Rules R80, R83: the length is checked first, then the characters from index 0, and nothing else is
checked; every field of the descriptor but mask and match is the proto's. The order of the checks is
the spec's decision D6. -/
def Obligations.CompileChecksLengthThenCharactersAndNothingElse : Prop :=
  ∀ p : Proto,
    (p.template.length ≠ 32 →
      compile p = .error ⟨.eTplLength, p.mnemonic, p.template.length⟩) ∧
    (∀ (pre post : Text) (c : Char), p.template = pre ++ c :: post → p.template.length = 32 →
      (∀ x ∈ pre, x = '0' ∨ x = '1' ∨ x = 'f' ∨ x = 's' ∨ x = 't') →
      ¬ (c = '0' ∨ c = '1' ∨ c = 'f' ∨ c = 's' ∨ c = 't') →
      compile p = .error ⟨.eTplChar, p.mnemonic, pre.length⟩) ∧
    (p.template.length = 32 →
      (∀ x ∈ p.template, x = '0' ∨ x = '1' ∨ x = 'f' ∨ x = 's' ∨ x = 't') →
      ∃ mask matchBits : Word,
        compile p = .ok { mnemonic := p.mnemonic, signature := p.signature, title := p.title,
                          description := p.description, format := p.format,
                          template := p.template, mask := mask, matchBits := matchBits,
                          isControlFlow := p.isControlFlow, sim := p.sim })

/-- Rule R81: TPL.COMPILE answers in either phase and writes nothing, the log included (the
spec's decision D6). -/
def Obligations.TplCompileAnswersAndWritesNothing : Prop :=
  ∀ (p : Proto) (s : State),
    (Template.wellFormed p.template = true → ∃ d, compile p = .ok d ∧
      exec (.tplCompile p) s = .next { s with rsp := some ⟨.ok, .basicDescriptor d⟩ }) ∧
    (Template.wellFormed p.template = false → ∃ e, compile p = .error e ∧
      exec (.tplCompile p) s = .next { s with rsp := some ⟨.err, .diag e⟩ })

/-- Rule R59: the match lies within the mask, and the words that match are those that agree with the
match on the fixed bits, whatever the variable bits. -/
def Obligations.MatchLiesWithinMask : Prop :=
  ∀ (p : Proto) (d : BasicDescriptor), compile p = .ok d →
    d.mask &&& d.matchBits = d.matchBits ∧
    (∀ v : Word, matchesWord d (d.matchBits ||| (v &&& ~~~ d.mask))) ∧
    (∀ w : Word, matchesWord d w → w = d.matchBits ||| (w &&& ~~~ d.mask))

/-- Rule R82, first two cases: a template of literals alone matches one word, a template without a
literal matches every word. -/
def Obligations.FullyFixedMatchesOneWordAndFullyVariableMatchesAll : Prop :=
  ∀ (p : Proto) (d : BasicDescriptor), compile p = .ok d →
    ((∀ c ∈ p.template, c = '0' ∨ c = '1') → ∀ w, matchesWord d w ↔ w = d.matchBits) ∧
    ((∀ c ∈ p.template, c ≠ '0' ∧ c ≠ '1') → popcount d.mask = 0 ∧ ∀ w, matchesWord d w)

/-! ### Operand fields -/

/-- Rule R60: the positions of a class, in descending order, its width, that two classes are disjoint,
and the count of all 32 positions. -/
def Obligations.FieldsAndFixedBitsCoverTheWord : Prop :=
  ∀ t : Text, Template.wellFormed t = true →
    (∀ c, positions t c =
      ((List.range 32).filter fun i => t[i]? == some c).map fun i => 31 - i) ∧
    (∀ c, (positions t c).Pairwise fun a b => b < a) ∧
    (∀ c, fieldWidth t c = (positions t c).length) ∧
    (∀ c, c ∉ t → fieldWidth t c = 0) ∧
    (∀ c c' b, c ≠ c' → b ∈ positions t c → b ∉ positions t c') ∧
    popcount (maskOf t) + fieldWidth t 'f' + fieldWidth t 's' + fieldWidth t 't' = 32

/-- Rule R61: a field's value is the number its bits spell, the first position most significant; a
contiguous field is a slice of the word; an absent one is 0. The extraction is the spec's decision
D5. -/
def Obligations.FieldValueIsTheNumberItsBitsSpell : Prop :=
  ∀ (t : Text) (c : Char) (w : Word),
    fieldOf t c w =
      ∑ j : Fin (positions t c).length,
        (w.getLsbD (positions t c)[j]).toNat * 2 ^ ((positions t c).length - 1 - j) ∧
    (∀ hi lo : Nat, lo ≤ hi →
      positions t c = (List.range (hi - lo + 1)).map (fun j => hi - j) →
      fieldOf t c w = (w.extractLsb' lo (hi - lo + 1)).toNat) ∧
    (positions t c = [] → fieldOf t c w = 0) ∧
    fieldOf t c w < 2 ^ fieldWidth t c

/-! ### Decoding -/

/-- Rules R93, R94: the groups are tried in list order, and the first that holds the masked word
under its mask gives the answer; in either phase, and nothing is written. -/
def Obligations.DecodeAnswersFromTheFirstGroupThatHoldsTheWord : Prop :=
  ∀ (s : State) (w : Word),
    (∀ (before after : List Group) (g : Group) (d : BasicDescriptor),
      s.blk.groups = before ++ g :: after →
      (∀ h ∈ before, mapGet h.table (w &&& h.mask) = none) →
      mapGet g.table (w &&& g.mask) = some d →
      exec (.decDecode w) s = .next { s with rsp := some ⟨.ok, .basicDescriptor d⟩ }) ∧
    ((∀ h ∈ s.blk.groups, mapGet h.table (w &&& h.mask) = none) →
      exec (.decDecode w) s = .next { s with rsp := some ⟨.none, .none⟩ })

/-- Rule R95: DEC.OPERANDS decodes as DEC.DECODE does and gives three fields, in the order of the
letters; where the invariant holds, the word is the match with the fields put back.
The command is the spec's decision D5. -/
def Obligations.OperandsAreTheThreeFieldsOfTheDecodedWord : Prop :=
  ∀ (s : State) (w : Word),
    (∀ (before after : List Group) (g : Group) (d : BasicDescriptor),
      s.blk.groups = before ++ g :: after →
      (∀ h ∈ before, mapGet h.table (w &&& h.mask) = none) →
      mapGet g.table (w &&& g.mask) = some d →
      exec (.decOperands w) s = .next { s with rsp := some ⟨.ok, .operands d
        [⟨fieldOf d.template 'f' w, fieldWidth d.template 'f'⟩,
         ⟨fieldOf d.template 's' w, fieldWidth d.template 's'⟩,
         ⟨fieldOf d.template 't' w, fieldWidth d.template 't'⟩]⟩ } ∧
      (s.Inv → w = d.matchBits ||| scatterFields d.template (operandFields d.template w))) ∧
    ((∀ h ∈ s.blk.groups, mapGet h.table (w &&& h.mask) = none) →
      exec (.decOperands w) s = .next { s with rsp := some ⟨.none, .none⟩ })

/-- Rules R91, R92: the four ways a DEC.ADD can end. The registry and the mnemonic map never change;
the pattern alone decides a collision; a new pattern enters the group of its mask, in place, or a new
group at the position that keeps the priority order. -/
def Obligations.DecAddEntersANewPatternAndKeepsTheFirst : Prop :=
  ∀ (p : Proto) (s : State),
    (s.blk.phase = .published →
      exec (.decAdd p) s = .next { s with rsp := some ⟨.frozen, .none⟩ }) ∧
    (∀ e, s.blk.phase = .build → compile p = .error e →
      exec (.decAdd p) s = .next { s with blk := { s.blk with log := s.blk.log ++ [e] },
                                          rsp := some ⟨.err, .diag e⟩ }) ∧
    (∀ d first, s.blk.phase = .build → compile p = .ok d →
      entryAt s.blk.groups d.mask d.matchBits = some first →
      exec (.decAdd p) s =
        .next { s with
          blk := { s.blk with log := s.blk.log ++ [⟨.eDupPattern, d.mnemonic, 0⟩] },
          rsp := some ⟨.err, .diag ⟨.eDupPattern, d.mnemonic, 0⟩⟩ }) ∧
    (∀ d, s.blk.phase = .build → compile p = .ok d →
      entryAt s.blk.groups d.mask d.matchBits = none →
      ∃ gs, exec (.decAdd p) s =
          .next { s with blk := { s.blk with groups := gs }, rsp := some ⟨.ok, .none⟩ } ∧
        (∀ m k, entryAt gs m k =
          if m = d.mask ∧ k = d.matchBits then some d else entryAt s.blk.groups m k) ∧
        (d.mask ∈ s.blk.groups.map Group.mask →
          gs.map Group.mask = s.blk.groups.map Group.mask) ∧
        (d.mask ∉ s.blk.groups.map Group.mask →
          ∃ front back, s.blk.groups = front ++ back ∧
            gs = front ++ { mask := d.mask, table := [(d.matchBits, d)] } :: back) ∧
        (s.Inv → gs.Pairwise fun g h =>
          before Config.params.tieOrder g.mask h.mask = true))

/-- Rule R90: the definition of the order, and that it is a strict total order on distinct masks;
masks with the same bit 31 order alike signed and unsigned. -/
def Obligations.PriorityIsAStrictTotalOrderOnMasks : Prop :=
  ∀ tie : TieOrder,
    (∀ a b, before tie a b = true ↔
      popcount b < popcount a ∨ (popcount a = popcount b ∧
        match tie with
        | .ascUnsigned => a.toNat < b.toNat
        | .descUnsigned => b.toNat < a.toNat
        | .ascSigned => a.toInt < b.toInt
        | .descSigned => b.toInt < a.toInt)) ∧
    (∀ a, before tie a a = false) ∧
    (∀ a b, a ≠ b → before tie a b = !before tie b a) ∧
    (∀ a b c, before tie a b = true → before tie b c = true → before tie a c = true) ∧
    (∀ a b : Word, a.getLsbD 31 = b.getLsbD 31 →
      before .ascSigned a b = before .ascUnsigned a b ∧
      before .descSigned a b = before .descUnsigned a b)

/-- Rule R96: decoding is sound and complete, and the entry it gives stands before every other entry
that matches. Completes DEC.DECODE for every word, whatever the groups hold. -/
def Obligations.DecodeGivesTheMatchingEntryOfHighestPriority : Prop :=
  ∀ (s : State) (w : Word), s.Inv →
    (∀ d, isEntry s.blk.groups d → matchesWord d w →
      (∀ d', isEntry s.blk.groups d' → matchesWord d' w → d' ≠ d →
        before Config.params.tieOrder d.mask d'.mask = true) →
      exec (.decDecode w) s = .next { s with rsp := some ⟨.ok, .basicDescriptor d⟩ }) ∧
    ((∀ d, isEntry s.blk.groups d → ¬ matchesWord d w) →
      exec (.decDecode w) s = .next { s with rsp := some ⟨.none, .none⟩ }) ∧
    ((∃ d, isEntry s.blk.groups d ∧ matchesWord d w) →
      ∃ d, isEntry s.blk.groups d ∧ matchesWord d w ∧
        ∀ d', isEntry s.blk.groups d' → matchesWord d' w → d' ≠ d →
          before Config.params.tieOrder d.mask d'.mask = true)

/-- Rule R98: of two entries that match, the one with fewer fixed bits is never the answer. -/
def Obligations.TheMoreSpecificPatternWins : Prop :=
  ∀ (s : State) (w : Word) (d₁ d₂ : BasicDescriptor), s.Inv →
    isEntry s.blk.groups d₁ → isEntry s.blk.groups d₂ →
    matchesWord d₁ w → matchesWord d₂ w → popcount d₂.mask < popcount d₁.mask →
    decodeWord s.blk.groups w ≠ some d₂ ∧
    ((∀ d, isEntry s.blk.groups d → matchesWord d w → d = d₁ ∨ d = d₂) →
      decodeWord s.blk.groups w = some d₁)

/-- Rule R97: for descriptors without a compatible pair in different groups of equal popcount, the
four tie orders give the same decoder function. -/
def Obligations.TieOrderIsUnobservableWhenTieFree : Prop :=
  ∀ (ds : List BasicDescriptor) (tie tie' : TieOrder),
    tieFree (decoderOf tie ds) →
    ∀ w, decodeWord (decoderOf tie ds) w = decodeWord (decoderOf tie' ds) w

/-- Rule R101: the decoder does not depend on the order in which descriptors of distinct patterns are
added. -/
def Obligations.DecoderIsIndependentOfInsertionOrder : Prop :=
  ∀ (tie : TieOrder) (ds ds' : List BasicDescriptor), ds.Perm ds' →
    (ds.map fun d => (d.mask, d.matchBits)).Nodup →
    decoderOf tie ds = decoderOf tie ds'

/-- The first testable property of the source with the condition that `90_conflicts.md` C1 gives it:
a word that has the fixed bits of a registered basic descriptor always decodes, to a descriptor with
at least as many fixed bits, even where the descriptor's own pattern collided: by rule R110 its pattern
is in the decoder, under itself or under the first descriptor of that pattern. -/
def Obligations.WordsOfARegisteredDescriptorAlwaysDecode : Prop :=
  ∀ (s : State) (d : BasicDescriptor) (v : Word), s.Inv → d ∈ s.blk.basic →
    ∃ d', decodeWord s.blk.groups (d.matchBits ||| (v &&& ~~~ d.mask)) = some d' ∧
      matchesWord d' (d.matchBits ||| (v &&& ~~~ d.mask)) ∧
      popcount d.mask ≤ popcount d'.mask

/-! ### Population -/

/-- Rules R110, R111: the ways a REG.BASIC can end. On a collision the decoder keeps the first, and
the registry's indices take the descriptor unless `COLLISION_ROLLBACK` says otherwise. -/
def Obligations.RegBasicRegistersAndKeepsTheFirstPattern : Prop :=
  ∀ (p : Proto) (s : State),
    (s.blk.phase = .published →
      exec (.regBasic p) s = .next { s with rsp := some ⟨.frozen, .none⟩ }) ∧
    (∀ e, s.blk.phase = .build → compile p = .error e →
      exec (.regBasic p) s = .next { s with blk := { s.blk with log := s.blk.log ++ [e] },
                                            rsp := some ⟨.err, .diag e⟩ }) ∧
    (∀ d first, s.blk.phase = .build → compile p = .ok d →
      entryAt s.blk.groups d.mask d.matchBits = some first →
      ∃ mnem, exec (.regBasic p) s =
        .next { s with
          blk := { (if Config.params.collisionRollback then s.blk else
                     { s.blk with all := s.blk.all ++ [.basic d], basic := s.blk.basic ++ [d],
                                  mnem := mnem }) with
                   log := s.blk.log ++ [⟨.eDupPattern, d.mnemonic, 0⟩] },
          rsp := some ⟨.err, .diag ⟨.eDupPattern, d.mnemonic, 0⟩⟩ } ∧
        ∀ m, mapGetD mnem m [] =
          if m = d.mnemonic then mapGetD s.blk.mnem m [] ++ [.basic d]
          else mapGetD s.blk.mnem m []) ∧
    (∀ d, s.blk.phase = .build → compile p = .ok d →
      entryAt s.blk.groups d.mask d.matchBits = none →
      ∃ gs mnem, exec (.regBasic p) s =
        .next { s with
          blk := { s.blk with all := s.blk.all ++ [.basic d], basic := s.blk.basic ++ [d],
                              mnem := mnem, groups := gs },
          rsp := some ⟨.ok, .none⟩ } ∧
        (∀ m k, entryAt gs m k =
          if m = d.mask ∧ k = d.matchBits then some d else entryAt s.blk.groups m k) ∧
        ∀ m, mapGetD mnem m [] =
          if m = d.mnemonic then mapGetD s.blk.mnem m [] ++ [.basic d]
          else mapGetD s.blk.mnem m [])

/-- Rules R112, R113: REG.EXT appends to the three indices, never touches the decoder or the log, and
cannot fail in phase `BUILD`. -/
def Obligations.RegExtAppendsToTheIndices : Prop :=
  ∀ (e : ExtendedDescriptor) (s : State),
    (s.blk.phase = .published →
      exec (.regExt e) s = .next { s with rsp := some ⟨.frozen, .none⟩ }) ∧
    (s.blk.phase = .build →
      ∃ mnem, exec (.regExt e) s =
        .next { s with
          blk := { s.blk with all := s.blk.all ++ [.extended e], ext := s.blk.ext ++ [e],
                              mnem := mnem },
          rsp := some ⟨.ok, .none⟩ } ∧
        ∀ m, mapGetD mnem m [] =
          if m = e.mnemonic then mapGetD s.blk.mnem m [] ++ [.extended e]
          else mapGetD s.blk.mnem m [])

/-- Rules R118, R119: a match gives a descriptor exactly when its three parts parse; its good matches
are registered in document order, each bad one logs one diagnostic at its index, and the group goes
on. What makes a group or a match malformed is the spec's decision D8. -/
def Obligations.LoadGroupRegistersGoodMatchesAndLogsBadOnes : Prop :=
  ∀ (g : GroupRecord) (s : State),
    (s.blk.phase = .published →
      exec (.regLoadgrp g) s = .next { s with rsp := some ⟨.frozen, .none⟩ }) ∧
    (s.blk.phase = .build → g.mnemonic = [] →
      exec (.regLoadgrp g) s =
        .next { s with blk := { s.blk with log := s.blk.log ++ [⟨.eBadGroup, [], 0⟩] },
                       rsp := some ⟨.err, .diag ⟨.eBadGroup, [], 0⟩⟩ }) ∧
    (∀ es bad, s.blk.phase = .build → g.mnemonic ≠ [] →
      es = g.matchRecords.filterMap (buildMatch Config.params g) →
      bad = (g.matchRecords.zipIdx.filter
        fun x => (buildMatch Config.params g x.1).isNone).map
          (fun x => (⟨.eBadMatch, g.mnemonic, x.2⟩ : Diag)) →
      ∃ mnem, exec (.regLoadgrp g) s =
        .next { s with
          blk := { s.blk with all := s.blk.all ++ es.map .extended, ext := s.blk.ext ++ es,
                              mnem := mnem, log := s.blk.log ++ bad },
          rsp := some ⟨.ok, .loaded es.length bad⟩ } ∧
        ∀ m, mapGetD mnem m [] =
          if m = g.mnemonic then mapGetD s.blk.mnem m [] ++ es.map .extended
          else mapGetD s.blk.mnem m []) ∧
    (∀ (r : MatchRecord) (e : ExtendedDescriptor), buildMatch Config.params g r = some e ↔
      e.mnemonic = g.mnemonic ∧
      Config.params.parseSignature r.signature = some e.signature ∧
      (∃ t, r.standardText = some t ∧
        parseTemplate Config.params t = some e.standardTemplate) ∧
      ((r.compactText = none ∧ e.compactTemplate = none) ∨
       ∃ t l, r.compactText = some t ∧ parseTemplate Config.params t = some l ∧
         e.compactTemplate = some l) ∧
      e.title = (r.title.orElse fun _ => g.defaultTitle).getD [] ∧
      e.description = (r.description.orElse fun _ => g.defaultDescription).getD [])

/-- Rule R120: REG.PUBLISH is never refused and writes the phase alone; a second one changes nothing
and answers `OK`; from then on population commands answer `FROZEN`, and no command changes the block.
The command is the spec's decision D13. -/
def Obligations.PublishEndsPopulation : Prop :=
  ∀ s : State, ∃ t,
    exec .regPublish s = .next t ∧
    t = { s with blk := { s.blk with phase := .published }, rsp := some ⟨.ok, .none⟩ } ∧
    exec .regPublish t = .next t ∧
    (∀ i : Instr, i.refusedWhenPublished = true →
      exec i t = .next { t with rsp := some ⟨.frozen, .none⟩ }) ∧
    ∀ (i : Instr) (u : State), exec i t = .next u → u.blk = t.blk

/-- Rule R162: the two refusals; nothing is written, the log included, and the payload is not looked
at. They are the spec's decisions D13 and D1. -/
def Obligations.TheTwoRefusalsChangeNothing : Prop :=
  ∀ s : State,
    (∀ i : Instr, s.blk.phase = .published → i.refusedWhenPublished = true →
      exec i s = .next { s with rsp := some ⟨.frozen, .none⟩ }) ∧
    (∀ payload, exec (.reserved payload) s = .next { s with rsp := some ⟨.badcmd, .none⟩ })

/-! ### Lookup -/

/-- Rules R130, R131: REG.RESOLVE looks the mnemonic up exactly and gives the first overload whose
signature has the arity of the given types and accepts each of them; where the invariant holds, that
is the first in registration order over the whole registry, basic and extended alike, and there is an
answer for every mnemonic and every list of types. -/
def Obligations.ResolveAnswersTheFirstAcceptingOverload : Prop :=
  ∀ (m : Text) (given : List OperandType) (s : State),
    (∀ ds d, mapGet s.blk.mnem m = some ds → firstAccepting Config.params.accepts given ds d →
      exec (.regResolve m given) s = .next { s with rsp := some ⟨.ok, .descriptor d⟩ }) ∧
    (∀ ds, mapGet s.blk.mnem m = some ds → noneAccepting Config.params.accepts given ds →
      exec (.regResolve m given) s = .next { s with rsp := some ⟨.none, .none⟩ }) ∧
    (mapGet s.blk.mnem m = none →
      exec (.regResolve m given) s = .next { s with rsp := some ⟨.none, .none⟩ }) ∧
    (∀ d, s.Inv → firstAccepting Config.params.accepts given
        (s.blk.all.filter fun x => mnemonicOf x == m) d →
      exec (.regResolve m given) s = .next { s with rsp := some ⟨.ok, .descriptor d⟩ }) ∧
    (s.Inv → noneAccepting Config.params.accepts given
        (s.blk.all.filter fun x => mnemonicOf x == m) →
      exec (.regResolve m given) s = .next { s with rsp := some ⟨.none, .none⟩ }) ∧
    ((∃ d, firstAccepting Config.params.accepts given
        (s.blk.all.filter fun x => mnemonicOf x == m) d) ∨
      noneAccepting Config.params.accepts given (s.blk.all.filter fun x => mnemonicOf x == m))

/-- Rule R133: REG.RESOLVEL keeps the lookup, the order and the exact arity of REG.RESOLVE, and asks
`acceptsLoose` of each position. That the arity stays exact is the spec's decision D9. -/
def Obligations.LooseResolveKeepsTheArityAndAsksTheLooserPredicate : Prop :=
  ∀ (m : Text) (given : List OperandType) (s : State),
    (∀ ds d, mapGet s.blk.mnem m = some ds →
      firstAccepting Config.params.acceptsLoose given ds d →
      exec (.regResolvel m given) s = .next { s with rsp := some ⟨.ok, .descriptor d⟩ }) ∧
    (∀ ds, mapGet s.blk.mnem m = some ds → noneAccepting Config.params.acceptsLoose given ds →
      exec (.regResolvel m given) s = .next { s with rsp := some ⟨.none, .none⟩ }) ∧
    (mapGet s.blk.mnem m = none →
      exec (.regResolvel m given) s = .next { s with rsp := some ⟨.none, .none⟩ }) ∧
    (∀ a b, Config.params.accepts a b = true → Config.params.acceptsLoose a b = true)

/-- Rule R133, corner case, from rule R12 (decision D9, log entry 5): whenever strict mode finds a
descriptor, loose mode finds one registered no later. -/
def Obligations.LooseModeFindsAnOverloadNoLaterThanStrict : Prop :=
  ∀ (m : Text) (given : List OperandType) (s : State) (d : Descriptor), s.Inv →
    exec (.regResolve m given) s = .next { s with rsp := some ⟨.ok, .descriptor d⟩ } →
    ∃ d', exec (.regResolvel m given) s = .next { s with rsp := some ⟨.ok, .descriptor d'⟩ } ∧
      s.blk.all.idxOf d' ≤ s.blk.all.idxOf d

/-- Rules R134, R18: the descriptors of the registry whose mnemonic starts with the prefix, each
character folded by the ASCII folding; the empty prefix gives all. The folding is the spec's decision
D11; the set is normative, and its order on the port is decision D12 (log entry 10). -/
def Obligations.PrefixSearchGivesEveryMnemonicThatStartsSo : Prop :=
  (∀ c : Char, foldCase c =
    if 'A'.toNat ≤ c.toNat ∧ c.toNat ≤ 'Z'.toNat then Char.ofNat (c.toNat - 'A'.toNat + 'a'.toNat)
    else c) ∧
  ∀ (p : Text) (s : State), ∃ ds,
    exec (.regPrefix p) s = .next { s with rsp := some ⟨.ok, .descriptors ds⟩ } ∧
    ds = s.blk.all.filter (fun d => decide (p.length ≤ (mnemonicOf d).length ∧
      ∀ i < p.length, (mnemonicOf d)[i]?.map foldCase = p[i]?.map foldCase)) ∧
    (p = [] → ds = s.blk.all)

/-- Rules R135 to R138: the enumerations and the log, each whole; where the invariant holds, the basic
and the extended list are those of the all-descriptors list, in its order. The three enumerations are
the spec's decision D1 and the log's reader decision D14. -/
def Obligations.EnumerationsGiveTheStoredLists : Prop :=
  ∀ s : State,
    exec .enumAll s = .next { s with rsp := some ⟨.ok, .descriptors s.blk.all⟩ } ∧
    exec .enumBasic s = .next { s with rsp := some ⟨.ok, .basics s.blk.basic⟩ } ∧
    exec .enumExt s = .next { s with rsp := some ⟨.ok, .extendeds s.blk.ext⟩ } ∧
    exec .logRead s = .next { s with rsp := some ⟨.ok, .diags s.blk.log⟩ } ∧
    (s.Inv →
      exec .enumBasic s =
        .next { s with rsp := some ⟨.ok, .basics (s.blk.all.filterMap asBasic)⟩ } ∧
      exec .enumExt s =
        .next { s with rsp := some ⟨.ok, .extendeds (s.blk.all.filterMap asExtended)⟩ })

/-! ### Rules over all commands -/

/-- Rules R42, R67: every command is answered in every state by exactly one response, whose payload
fits its status; `FROZEN` and `BADCMD` are answered where rule R162 says and nowhere else. Atomic
commands, always answered, are the spec's decision D1. -/
def Obligations.EveryCommandIsAnsweredOnce : Prop :=
  ∀ (i : Instr) (s : State), ∃ b r,
    exec i s = .next { s with blk := b, rsp := some r } ∧
    (r.status = .frozen ↔ s.blk.phase = .published ∧ i.refusedWhenPublished = true) ∧
    (r.status = .badcmd ↔ ∃ payload, i = .reserved payload) ∧
    (r.status = .err ↔ ∃ e, r.payload = .diag e) ∧
    (r.status = .none ∨ r.status = .frozen ∨ r.status = .badcmd → r.payload = .none)

/-- Rules R45, R139: a lookup leaves the block unchanged, and its answer is a function of the stored
block and its own payload alone. -/
def Obligations.LookupsReadTheBlockAndNothingElse : Prop :=
  ∀ (i : Instr) (b : Block), i.isLookup = true →
    ∃ r, ∀ s : State, s.blk = b → exec i s = .next { s with rsp := some r }

/-- Rule R159: what an answer other than `OK` has changed. The one exception is a collision that is
kept: REG.BASIC has then appended its descriptor to `S.all`, `S.basic` and `S.mnem`. -/
def Obligations.ErrorsChangeTheLogAndOnlyAKeptCollisionTheIndices : Prop :=
  ∀ (i : Instr) (s t : State) (r : Response), exec i s = .next t → t.rsp = some r →
    (r.status = .none ∨ r.status = .frozen ∨ r.status = .badcmd → t.blk = s.blk) ∧
    (r.status = .err → (∃ p, i = .tplCompile p) → t.blk = s.blk) ∧
    (∀ e, r.payload = .diag e → (∀ p, i ≠ .tplCompile p) →
      t.blk.log = s.blk.log ++ [e] ∧ t.blk.groups = s.blk.groups ∧ t.blk.phase = s.blk.phase ∧
      t.blk.ext = s.blk.ext ∧
      (t.blk.all = s.blk.all ∧ t.blk.basic = s.blk.basic ∧ t.blk.mnem = s.blk.mnem ∨
       Config.params.collisionRollback = false ∧ e.code = .eDupPattern ∧
       ∃ p d, i = .regBasic p ∧ compile p = .ok d ∧
         t.blk.all = s.blk.all ++ [.basic d] ∧ t.blk.basic = s.blk.basic ++ [d] ∧
         ∀ m, mapGetD t.blk.mnem m [] =
           if m = d.mnemonic then mapGetD s.blk.mnem m [] ++ [.basic d]
           else mapGetD s.blk.mnem m []))

/-- Rule R34: who appends to the log, in which phase, and that nothing leaves it. -/
def Obligations.OnlyThreeCommandsAppendToTheLog : Prop :=
  ∀ (i : Instr) (s t : State), exec i s = .next t →
    s.blk.log <+: t.blk.log ∧
    (t.blk.log ≠ s.blk.log → s.blk.phase = .build ∧
      ((∃ p, i = .decAdd p) ∨ (∃ p, i = .regBasic p) ∨ ∃ g, i = .regLoadgrp g))

/-- The column "Written by" of the table of rule R36, each of its four stores, the log among them, and
rule R161 for the phase. -/
def Obligations.EachStoreIsWrittenByItsOwnCommandsOnly : Prop :=
  ∀ (i : Instr) (s t : State), exec i s = .next t →
    (t.blk.all ≠ s.blk.all ∨ t.blk.mnem ≠ s.blk.mnem →
      (∃ p, i = .regBasic p) ∨ (∃ e, i = .regExt e) ∨ ∃ g, i = .regLoadgrp g) ∧
    (t.blk.basic ≠ s.blk.basic → ∃ p, i = .regBasic p) ∧
    (t.blk.ext ≠ s.blk.ext → (∃ e, i = .regExt e) ∨ ∃ g, i = .regLoadgrp g) ∧
    (t.blk.groups ≠ s.blk.groups → (∃ p, i = .decAdd p) ∨ ∃ p, i = .regBasic p) ∧
    (t.blk.log ≠ s.blk.log →
      (∃ p, i = .decAdd p) ∨ (∃ p, i = .regBasic p) ∨ ∃ g, i = .regLoadgrp g) ∧
    (t.blk.phase ≠ s.blk.phase →
      i = .regPublish ∧ s.blk.phase = .build ∧ t.blk.phase = .published) ∧
    t.cmds = s.cmds

/-- Rule R39, over runs of any length from any state: nothing stored is changed or lost, in the three
lists, in the overload list of any mnemonic, in the groups and in the log. -/
def Obligations.NothingStoredIsEverLost : Prop :=
  ∀ (n : Nat) (s t : State), core.run n s = .next t → Grows s.blk t.blk

/-- Rule R48: after publish the stored block never changes, and what a command answers does not depend
on the commands that ran before it. -/
def Obligations.PublishedAnswersNeverChange : Prop :=
  ∀ (n : Nat) (s t : State), s.blk.phase = .published → core.run n s = .next t →
    t.blk = s.blk ∧
    ∀ i : Instr, ∃ r, exec i s = .next { s with rsp := some r } ∧
      exec i t = .next { t with rsp := some r }

/-- Rules R16, R160, R173: whatever the catalogue and whatever its order, the boot sequence runs to its
end without a stop, and leaves a published block that keeps the invariant: every good match of every
named group, and every basic descriptor whose template is well formed, or, where collisions are rolled
back, a sublist of those. Where they are not, the registry stands in the order of the catalogue. A
catalogue put basics first boots in the order of rule R173. That order is the spec's decision D18; that
the boot agent follows the catalogue's own order is log entry 13. -/
def Obligations.BootPublishesWhateverTheCatalogue : Prop :=
  ∀ c : Catalog,
    bootCommands c.basicsFirst =
      c.protos.map .regBasic ++ c.groups.map .regLoadgrp ++ [.regPublish] ∧
    ∃ t,
      core.run (bootCommands c).length (bootState c) = .next t ∧
      t.cmds = [] ∧ t.blk.phase = .published ∧ t.Inv ∧
      t.blk.ext = (c.groups.filter fun g => !g.mnemonic.isEmpty).flatMap
        (fun g => g.matchRecords.filterMap (buildMatch Config.params g)) ∧
      (if Config.params.collisionRollback then
        t.blk.basic.Sublist (c.protos.filterMap fun p => (compile p).toOption)
       else
        t.blk.basic = c.protos.filterMap (fun p => (compile p).toOption) ∧
        t.blk.all = c.entries.flatMap (registeredBy Config.params))

/-- Rule R13: an expansion text is the join of its lines by newlines, no line holds a newline, and the
text parses to a list exactly when the list has one statement per line, in order, each of them what the
parser makes of its line. That a line is what stands between two newlines is log entry 14. -/
def Obligations.AnExpansionParsesToOneStatementPerLine : Prop :=
  ∀ text : Text,
    List.intercalate ['\n'] (textLines text) = text ∧
    (∀ line ∈ textLines text, '\n' ∉ line) ∧
    ∀ stmts : List Stmt, parseTemplate Config.params text = some stmts ↔
      stmts.length = text.count '\n' + 1 ∧
      ∀ i < stmts.length, ∃ line, (textLines text)[i]? = some line ∧
        Config.params.parseLine text i line = stmts[i]?
end

