-- ==== Sys2Proof/Laws/Maps.lean ====
section
/-! SUPPORT. Finite maps: what a read gives after a write, that a write keeps the canonical form, that
canonical maps with equal reads are equal, and that the two key orders are strict total orders. -/

namespace Sys2Proof.Machine

/-- A strict total order given as a Boolean test. -/
structure StrictTotal {K : Type} (lt : K → K → Bool) : Prop where
  irrefl : ∀ a, lt a a = false
  trans : ∀ a b c, lt a b = true → lt b c = true → lt a c = true
  total : ∀ a b, a ≠ b → lt a b = true ∨ lt b a = true

theorem StrictTotal.asymm {K : Type} {lt : K → K → Bool} (h : StrictTotal lt) {a b : K}
    (hab : lt a b = true) : lt b a = false := by
  cases hba : lt b a
  · rfl
  · have := h.trans a b a hab hba
    simp [h.irrefl] at this

theorem StrictTotal.ne {K : Type} {lt : K → K → Bool} (h : StrictTotal lt) {a b : K}
    (hab : lt a b = true) : a ≠ b := by
  rintro rfl
  simp [h.irrefl] at hab

section
variable {K V : Type} [DecidableEq K]

@[simp] theorem mapGet_nil (k : K) : mapGet ([] : FinMap K V) k = none := rfl

theorem mapGet_cons (k' : K) (v : V) (m : FinMap K V) (k : K) :
    mapGet ((k', v) :: m) k = if k' = k then some v else mapGet m k := rfl

/-- A read after a write (rule R19). -/
theorem mapGet_mapSet (lt : K → K → Bool) (m : FinMap K V) (k : K) (v : V) (k' : K) :
    mapGet (mapSet lt m k v) k' = if k' = k then some v else mapGet m k' := by
  induction m with
  | nil => simp only [mapSet, mapGet_cons, mapGet_nil]; grind
  | cons e rest ih =>
    obtain ⟨k₀, v₀⟩ := e
    simp only [mapSet]
    by_cases h₁ : k₀ = k
    · simp only [h₁, if_true, mapGet_cons]
      grind
    · cases h₂ : lt k k₀ <;> simp only [h₁, if_false, if_true, Bool.false_eq_true, mapGet_cons, ih]
      all_goals grind

theorem mapGetD_mapSet (lt : K → K → Bool) (m : FinMap K V) (k : K) (v : V) (k' : K) (d : V) :
    mapGetD (mapSet lt m k v) k' d = if k' = k then v else mapGetD m k' d := by
  unfold mapGetD
  rw [mapGet_mapSet]
  split_ifs <;> rfl

theorem mapSet_ne_nil (lt : K → K → Bool) (m : FinMap K V) (k : K) (v : V) :
    mapSet lt m k v ≠ [] := by
  cases m with
  | nil => simp [mapSet]
  | cons e rest =>
    simp only [mapSet]
    split_ifs <;> simp

/-- Every entry after a write is the new one or an old one. -/
theorem mem_mapSet {lt : K → K → Bool} {m : FinMap K V} {k : K} {v : V} {e : K × V}
    (h : e ∈ mapSet lt m k v) : e = (k, v) ∨ e ∈ m := by
  induction m with
  | nil => simpa [mapSet] using h
  | cons e₀ rest ih =>
    simp only [mapSet] at h
    split_ifs at h <;> simp at h ⊢ <;> tauto

/-- What a read gives is an entry. -/
theorem mem_of_mapGet {m : FinMap K V} {k : K} {v : V} (h : mapGet m k = some v) : (k, v) ∈ m := by
  induction m with
  | nil => simp at h
  | cons e rest ih =>
    obtain ⟨k₀, v₀⟩ := e
    rw [mapGet_cons] at h
    split_ifs at h with hk
    · simp_all
    · exact List.mem_cons_of_mem _ (ih h)

/-- A write keeps the canonical form. -/
theorem mapCanonical_mapSet {lt : K → K → Bool} (hlt : StrictTotal lt) {m : FinMap K V}
    (hm : mapCanonical lt m) (k : K) (v : V) : mapCanonical lt (mapSet lt m k v) := by
  induction m with
  | nil => simp [mapSet, mapCanonical]
  | cons e rest ih =>
    obtain ⟨k₀, v₀⟩ := e
    unfold mapCanonical at hm ih ⊢
    rw [List.pairwise_cons] at hm
    simp only [mapSet]
    split_ifs with h₁ h₂
    · subst h₁; exact List.pairwise_cons.2 hm
    · refine List.pairwise_cons.2 ⟨?_, List.pairwise_cons.2 hm⟩
      intro x hx
      rcases List.mem_cons.1 hx with rfl | hx
      · exact h₂
      · exact hlt.trans _ _ _ h₂ (hm.1 x hx)
    · refine List.pairwise_cons.2 ⟨?_, ih hm.2⟩
      intro x hx
      rcases mem_mapSet hx with rfl | hx
      · rcases hlt.total _ _ h₁ with h | h
        · exact h
        · exact absurd h h₂
      · exact hm.1 x hx

/-- In a canonical map, every entry is what a read of its key gives. -/
theorem mapGet_of_mem {lt : K → K → Bool} (hlt : StrictTotal lt) {m : FinMap K V}
    (hm : mapCanonical lt m) {k : K} {v : V} (h : (k, v) ∈ m) : mapGet m k = some v := by
  induction m with
  | nil => simp at h
  | cons e rest ih =>
    obtain ⟨k₀, v₀⟩ := e
    unfold mapCanonical at hm ih
    rw [List.pairwise_cons] at hm
    rw [mapGet_cons]
    rcases List.mem_cons.1 h with h | h
    · simp_all
    · rw [if_neg (hlt.ne (hm.1 _ h))]
      exact ih hm.2 h

/-- A key below every key of a map is not in it. -/
theorem mapGet_eq_none_of_lt {lt : K → K → Bool} (hlt : StrictTotal lt) {m : FinMap K V} {k : K}
    (h : ∀ e ∈ m, lt k e.1 = true) : mapGet m k = none := by
  cases hg : mapGet m k with
  | none => rfl
  | some v => exact absurd rfl (hlt.ne (h _ (mem_of_mapGet hg)))

/-- Canonical maps with equal reads are equal lists. -/
theorem map_ext {lt : K → K → Bool} (hlt : StrictTotal lt) {m m' : FinMap K V}
    (hm : mapCanonical lt m) (hm' : mapCanonical lt m') (h : ∀ k, mapGet m k = mapGet m' k) :
    m = m' := by
  induction m generalizing m' with
  | nil =>
    cases m' with
    | nil => rfl
    | cons e _ =>
      obtain ⟨k, v⟩ := e
      simpa [mapGet_cons] using h k
  | cons e rest ih =>
    obtain ⟨k, v⟩ := e
    cases m' with
    | nil => simpa [mapGet_cons] using h k
    | cons e' rest' =>
      obtain ⟨k', v'⟩ := e'
      unfold mapCanonical at hm hm' ih
      rw [List.pairwise_cons] at hm hm'
      have hk : k = k' := by
        by_contra hne
        rcases hlt.total _ _ hne with hl | hl
        · have h0 := h k
          rw [mapGet_cons, if_pos rfl, mapGet_cons, if_neg (Ne.symm hne),
            mapGet_eq_none_of_lt hlt fun e he => hlt.trans _ _ _ hl (hm'.1 e he)] at h0
          cases h0
        · have h0 := h k'
          rw [mapGet_cons, if_neg hne, mapGet_cons, if_pos rfl,
            mapGet_eq_none_of_lt hlt fun e he => hlt.trans _ _ _ hl (hm.1 e he)] at h0
          cases h0
      subst hk
      have hv : v = v' := by simpa [mapGet_cons] using h k
      subst hv
      congr 1
      refine ih hm.2 hm'.2 fun k₁ => ?_
      have h0 := h k₁
      rw [mapGet_cons, mapGet_cons] at h0
      by_cases hk : k = k₁
      · subst hk
        rw [mapGet_eq_none_of_lt hlt hm.1, mapGet_eq_none_of_lt hlt hm'.1]
      · simpa [hk] using h0

end

/-- Word keys are in a strict total order. -/
theorem wordLt_strictTotal : StrictTotal wordLt where
  irrefl a := by simp [wordLt]
  trans a b c := by simp only [wordLt, decide_eq_true_eq]; omega
  total a b h := by
    have : a.toNat ≠ b.toNat := fun h' => h (BitVec.eq_of_toNat_eq h')
    simp only [wordLt, decide_eq_true_eq]
    omega

theorem textLt_trans (a b c : Text) (hab : textLt a b = true) (hbc : textLt b c = true) :
    textLt a c = true := by
  induction a generalizing b c with
  | nil =>
    cases c with
    | nil => cases b <;> simp [textLt] at hab hbc
    | cons => rfl
  | cons x xs ih =>
    cases b with
    | nil => simp [textLt] at hab
    | cons y ys =>
      cases c with
      | nil => simp [textLt] at hbc
      | cons z zs =>
        simp only [textLt, Bool.or_eq_true, decide_eq_true_eq, Bool.and_eq_true, beq_iff_eq] at *
        rcases hab with h | ⟨rfl, h⟩ <;> rcases hbc with h' | ⟨rfl, h'⟩
        · left; omega
        · exact .inl h
        · exact .inl h'
        · exact .inr ⟨rfl, ih _ _ h h'⟩

theorem textLt_total (a b : Text) (h : a ≠ b) : textLt a b = true ∨ textLt b a = true := by
  induction a generalizing b with
  | nil => cases b <;> simp_all [textLt]
  | cons x xs ih =>
    cases b with
    | nil => simp [textLt]
    | cons y ys =>
      simp only [textLt, Bool.or_eq_true, decide_eq_true_eq, Bool.and_eq_true, beq_iff_eq]
      by_cases hxy : x = y
      · subst hxy
        rcases ih ys (fun h' => h (by rw [h'])) with h' | h' <;> simp [h']
      · have : x.toNat ≠ y.toNat := fun h' => hxy (Char.toNat_inj.1 h')
        omega

/-- Mnemonic keys are in a strict total order. -/
theorem textLt_strictTotal : StrictTotal textLt where
  irrefl a := by induction a <;> simp_all [textLt]
  trans := textLt_trans
  total := textLt_total

end Sys2Proof.Machine
end

