-- ==== Sys2Proof/Laws/State.lean ====
section
/-! SUPPORT. One lemma per field per update of the state and of the block, so that no proof unfolds a
record update. -/

namespace Sys2Proof.Machine

variable (s : State) (b : Block) (r : Response) (c : Command) (e : Diag) (d : BasicDescriptor)
  (x : ExtendedDescriptor)

@[simp] theorem complete_blk : (s.complete b r).blk = b := rfl
@[simp] theorem complete_cmds : (s.complete b r).cmds = s.cmds := rfl
@[simp] theorem complete_rsp : (s.complete b r).rsp = some r := rfl

@[simp] theorem placeCommand_blk : (placeCommand c s).blk = s.blk := rfl
@[simp] theorem placeCommand_cmds : (placeCommand c s).cmds = c :: s.cmds := rfl
@[simp] theorem placeCommand_rsp : (placeCommand c s).rsp = s.rsp := rfl

@[simp] theorem addDiag_phase : (b.addDiag e).phase = b.phase := rfl
@[simp] theorem addDiag_all : (b.addDiag e).all = b.all := rfl
@[simp] theorem addDiag_basic : (b.addDiag e).basic = b.basic := rfl
@[simp] theorem addDiag_ext : (b.addDiag e).ext = b.ext := rfl
@[simp] theorem addDiag_mnem : (b.addDiag e).mnem = b.mnem := rfl
@[simp] theorem addDiag_groups : (b.addDiag e).groups = b.groups := rfl
@[simp] theorem addDiag_log : (b.addDiag e).log = b.log ++ [e] := rfl

@[simp] theorem addBasic_phase : (b.addBasic d).phase = b.phase := rfl
@[simp] theorem addBasic_all : (b.addBasic d).all = b.all ++ [.basic d] := rfl
@[simp] theorem addBasic_basic : (b.addBasic d).basic = b.basic ++ [d] := rfl
@[simp] theorem addBasic_ext : (b.addBasic d).ext = b.ext := rfl
@[simp] theorem addBasic_mnem : (b.addBasic d).mnem = indexMnemonic (.basic d) b.mnem := rfl
@[simp] theorem addBasic_groups : (b.addBasic d).groups = b.groups := rfl
@[simp] theorem addBasic_log : (b.addBasic d).log = b.log := rfl

@[simp] theorem regExt_phase : (regExt x b).phase = b.phase := rfl
@[simp] theorem regExt_all : (regExt x b).all = b.all ++ [.extended x] := rfl
@[simp] theorem regExt_basic : (regExt x b).basic = b.basic := rfl
@[simp] theorem regExt_ext : (regExt x b).ext = b.ext ++ [x] := rfl
@[simp] theorem regExt_mnem : (regExt x b).mnem = indexMnemonic (.extended x) b.mnem := rfl
@[simp] theorem regExt_groups : (regExt x b).groups = b.groups := rfl
@[simp] theorem regExt_log : (regExt x b).log = b.log := rfl

/-- A population command is refused exactly in phase `PUBLISHED` (rule R31). -/
@[simp] theorem frozen_iff : b.frozen = true ↔ b.phase = .published := by
  simp [Block.frozen]

/-- In phase `BUILD` nothing is refused (rule R31). -/
@[simp] theorem frozen_eq_false_iff : b.frozen = false ↔ b.phase = .build := by
  cases h : b.phase <;> simp [Block.frozen, h]

end Sys2Proof.Machine
end

