-- ==== Sys2Proof/Laws/Decoder.lean ====
section
/-! SUPPORT. The decoder's groups: finding, entering and replacing a group, what `entryAt` reads after
`enterPattern`, what `decAdd` and `decodeWord` can do, and that entering a pattern keeps rule R26. -/

namespace Sys2Proof.Machine

/-- Finding a group at the head of the list. -/
theorem findGroup_cons (h : Group) (gs : List Group) (m : Word) :
    findGroup (h :: gs) m = if h.mask = m then some h else findGroup gs m := by
  unfold findGroup
  rw [List.find?_cons]
  by_cases hm : h.mask = m
  · simp [hm]
  · simp only [hm, if_false, beq_eq_false_iff_ne.2 hm]

/-- A group found is a group of the list, of that mask. -/
theorem mem_of_findGroup {gs : List Group} {m : Word} {g : Group} (h : findGroup gs m = some g) :
    g ∈ gs ∧ g.mask = m := by
  unfold findGroup at h
  exact ⟨List.mem_of_find?_eq_some h, by simpa using List.find?_some h⟩

/-- No group is found exactly when the mask is none of the masks. -/
theorem findGroup_eq_none_iff (gs : List Group) (m : Word) :
    findGroup gs m = none ↔ m ∉ gs.map Group.mask := by
  simp only [findGroup, List.find?_eq_none, List.mem_map, beq_iff_eq, not_exists, not_and]

/-- A group entered stands somewhere in the list, after groups that come before it. -/
theorem insertGroup_split (tie : TieOrder) (g : Group) (gs : List Group) :
    ∃ front back, gs = front ++ back ∧ insertGroup tie g gs = front ++ g :: back ∧
      (∀ h ∈ front, before tie h.mask g.mask = true) ∧
      ∀ h, back.head? = some h → before tie h.mask g.mask = false := by
  induction gs with
  | nil => exact ⟨[], [], rfl, rfl, by simp, by simp⟩
  | cons h rest ih =>
    rw [insertGroup]
    cases hb : before tie h.mask g.mask
    · exact ⟨[], h :: rest, rfl, rfl, by simp, by simp [hb]⟩
    · obtain ⟨front, back, rfl, h₂, h₃, h₄⟩ := ih
      exact ⟨h :: front, back, rfl, by simp [h₂], by simpa [hb] using h₃, h₄⟩

/-- Finding a group after a new one was entered. -/
theorem findGroup_insertGroup (tie : TieOrder) {g : Group} {gs : List Group}
    (hnew : findGroup gs g.mask = none) (m : Word) :
    findGroup (insertGroup tie g gs) m = if m = g.mask then some g else findGroup gs m := by
  induction gs with
  | nil => simp only [insertGroup, findGroup_cons, eq_comm]
  | cons h rest ih =>
    rw [findGroup_cons] at hnew
    split_ifs at hnew with hm
    rw [insertGroup]
    cases before tie h.mask g.mask
    · simp only [Bool.false_eq_true, if_false, findGroup_cons]
      grind
    · simp only [if_true, findGroup_cons, ih hnew]
      grind

/-- Finding a group after one was replaced. -/
theorem findGroup_replaceGroup {g : Group} {gs : List Group}
    (hold : findGroup gs g.mask ≠ none) (m : Word) :
    findGroup (replaceGroup g gs) m = if m = g.mask then some g else findGroup gs m := by
  induction gs with
  | nil => simp [findGroup] at hold
  | cons h rest ih =>
    rw [replaceGroup]
    by_cases hm : h.mask = g.mask
    · simp only [hm, if_true, findGroup_cons]
      grind
    · rw [findGroup_cons, if_neg hm] at hold
      simp only [hm, if_false, findGroup_cons, ih hold]
      grind

/-- Replacing a group keeps every mask in its place. -/
theorem map_mask_replaceGroup (g : Group) (gs : List Group) :
    (replaceGroup g gs).map Group.mask = gs.map Group.mask := by
  induction gs with
  | nil => rfl
  | cons h rest ih =>
    rw [replaceGroup]
    by_cases hm : h.mask = g.mask <;> simp [hm, ih]

/-- After a replacement every group is the new one or an old one. -/
theorem mem_replaceGroup {g h : Group} {gs : List Group} (hh : h ∈ replaceGroup g gs) :
    h = g ∨ h ∈ gs := by
  induction gs with
  | nil => simp [replaceGroup] at hh
  | cons x rest ih =>
    rw [replaceGroup] at hh
    split_ifs at hh
    · rcases List.mem_cons.1 hh with h' | h'
      · exact .inl h'
      · exact .inr (List.mem_cons_of_mem _ h')
    · rcases List.mem_cons.1 hh with rfl | h'
      · exact .inr (List.mem_cons_self ..)
      · exact (ih h').imp id (List.mem_cons_of_mem _)

/-- What the decoder holds after a pattern was entered: the pattern, and all it held (rule R91). -/
theorem entryAt_enterPattern (tie : TieOrder) (d : BasicDescriptor) (gs : List Group)
    (m k : Word) :
    entryAt (enterPattern tie d gs) m k =
      if m = d.mask ∧ k = d.matchBits then some d else entryAt gs m k := by
  unfold enterPattern
  cases hf : findGroup gs d.mask with
  | none =>
    unfold entryAt
    dsimp only
    rw [findGroup_insertGroup tie hf]
    by_cases hm : m = d.mask
    · subst hm
      by_cases hk : k = d.matchBits
      · subst hk; simp [mapGet_mapSet]
      · simp [mapGet_mapSet, hk, hf]
    · simp [hm]
  | some g =>
    obtain ⟨-, hg⟩ := mem_of_findGroup hf
    unfold entryAt
    dsimp only
    rw [findGroup_replaceGroup (by simp [hg, hf])]
    by_cases hm : m = d.mask
    · subst hm
      by_cases hk : k = d.matchBits
      · subst hk; simp [hg, mapGet_mapSet]
      · simp [mapGet_mapSet, hk, hf, hg]
    · simp [hm, hg]

/-- Everything `decAdd` can do (rule R91). -/
theorem decAdd_cases (tie : TieOrder) (d : BasicDescriptor) (b : Block) :
    (entryAt b.groups d.mask d.matchBits = none ∧
      decAdd tie d b = (.added, { b with groups := enterPattern tie d b.groups })) ∨
    (∃ first, entryAt b.groups d.mask d.matchBits = some first ∧
      decAdd tie d b = (.dup, b.addDiag (dupDiag d))) := by
  unfold decAdd
  cases h : entryAt b.groups d.mask d.matchBits with
  | none => exact .inl ⟨rfl, rfl⟩
  | some first => exact .inr ⟨first, rfl, rfl⟩

/-- `decodeWord` gives the answer of the first group that holds the word (rule R93). -/
theorem decodeWord_append {front back : List Group} {g : Group} {w : Word} {d : BasicDescriptor}
    (hfront : ∀ h ∈ front, mapGet h.table (w &&& h.mask) = none)
    (hg : mapGet g.table (w &&& g.mask) = some d) :
    decodeWord (front ++ g :: back) w = some d := by
  induction front with
  | nil => simp [decodeWord, hg]
  | cons h rest ih =>
    rw [List.cons_append, decodeWord, hfront h (List.mem_cons_self ..)]
    exact ih fun x hx => hfront x (List.mem_cons_of_mem _ hx)

/-- `decodeWord` finds nothing exactly when no group holds the word (rule R93). -/
theorem decodeWord_eq_none_iff (gs : List Group) (w : Word) :
    decodeWord gs w = none ↔ ∀ h ∈ gs, mapGet h.table (w &&& h.mask) = none := by
  induction gs with
  | nil => simp [decodeWord]
  | cons g rest ih =>
    rw [decodeWord]
    cases h : mapGet g.table (w &&& g.mask) <;> simp [h, ih]

/-- What `decodeWord` finds stands in a group, and no group before it holds the word (rule R93). -/
theorem decodeWord_eq_some {gs : List Group} {w : Word} {d : BasicDescriptor}
    (h : decodeWord gs w = some d) :
    ∃ front g back, gs = front ++ g :: back ∧
      (∀ x ∈ front, mapGet x.table (w &&& x.mask) = none) ∧
      mapGet g.table (w &&& g.mask) = some d := by
  induction gs with
  | nil => simp [decodeWord] at h
  | cons g rest ih =>
    rw [decodeWord] at h
    cases hg : mapGet g.table (w &&& g.mask) with
    | some d' => exact ⟨[], g, rest, rfl, by simp, by simpa [hg] using h⟩
    | none =>
      obtain ⟨front, g', back, rfl, h₁, h₂⟩ := ih (by simpa [hg] using h)
      exact ⟨g :: front, g', back, rfl, by simpa [hg] using h₁, h₂⟩

/-- A group with one more entry is still a group of rule R25. -/
theorem groupOk_mapSet {g : Group} (hg : GroupOk g) {d : BasicDescriptor} (hd : DescriptorOk d)
    (hm : d.mask = g.mask) :
    GroupOk { g with table := mapSet wordLt g.table d.matchBits d } where
  nonempty := mapSet_ne_nil _ _ _ _
  canonical := mapCanonical_mapSet wordLt_strictTotal hg.canonical _ _
  entries e he := by
    rcases mem_mapSet he with rfl | he
    · exact ⟨hm, rfl, hd⟩
    · exact hg.entries e he

/-- A group created for a descriptor is a group of rule R25. -/
theorem groupOk_singleton {d : BasicDescriptor} (hd : DescriptorOk d) :
    GroupOk { mask := d.mask, table := mapSet wordLt [] d.matchBits d } where
  nonempty := mapSet_ne_nil _ _ _ _
  canonical := mapCanonical_mapSet wordLt_strictTotal (by simp [mapCanonical]) _ _
  entries e he := by
    rcases mem_mapSet he with rfl | he
    · exact ⟨rfl, rfl, hd⟩
    · simp at he

/-- Entering a new group keeps rule R26, for a priority order that is a strict total order. -/
theorem groupsOk_insertGroup {tie : TieOrder} (hb : StrictTotal (before tie)) {gs : List Group}
    (h : GroupsOk tie gs) {g : Group} (hg : GroupOk g) (hf : findGroup gs g.mask = none) :
    GroupsOk tie (insertGroup tie g gs) := by
  obtain ⟨front, back, rfl, hins, hfront, hback⟩ := insertGroup_split tie g gs
  have hnew := (findGroup_eq_none_iff _ _).1 hf
  have hs := List.pairwise_append.1 h.sorted
  have hafter : ∀ x ∈ back, before tie g.mask x.mask = true := by
    cases back with
    | nil => simp
    | cons y ys =>
      have hy : before tie g.mask y.mask = true := by
        have hne : y.mask ≠ g.mask := fun hy => hnew (by simp [← hy])
        rcases hb.total _ _ hne with h₁ | h₁
        · simp [hback y rfl] at h₁
        · exact h₁
      intro x hx
      rcases List.mem_cons.1 hx with rfl | hx
      · exact hy
      · exact hb.trans _ _ _ hy ((List.pairwise_cons.1 hs.2.1).1 x hx)
  rw [hins]
  refine ⟨?_, List.pairwise_append.2 ⟨hs.1, List.pairwise_cons.2 ⟨hafter, hs.2.1⟩, ?_⟩, ?_⟩
  · have hp : (front ++ g :: back).Perm (g :: (front ++ back)) := List.perm_middle
    rw [(hp.map Group.mask).nodup_iff, List.map_cons, List.nodup_cons]
    exact ⟨hnew, h.distinct⟩
  · intro x hx y hy
    rcases List.mem_cons.1 hy with rfl | hy
    · exact hfront x hx
    · exact hs.2.2 x hx y hy
  · intro x hx
    rcases List.mem_append.1 hx with hx | hx
    · exact h.each x (List.mem_append_left _ hx)
    · rcases List.mem_cons.1 hx with rfl | hx
      · exact hg
      · exact h.each x (List.mem_append_right _ hx)

/-- Replacing a group by one of the same mask keeps rule R26. -/
theorem groupsOk_replaceGroup {tie : TieOrder} {gs : List Group} (h : GroupsOk tie gs) {g : Group}
    (hg : GroupOk g) : GroupsOk tie (replaceGroup g gs) := by
  have hmap := map_mask_replaceGroup g gs
  refine ⟨by rw [hmap]; exact h.distinct, ?_, fun x hx => ?_⟩
  · have h₁ := h.sorted
    rw [← List.pairwise_map (f := Group.mask) (R := fun a b => before tie a b = true)] at h₁ ⊢
    rw [hmap]
    exact h₁
  · rcases mem_replaceGroup hx with rfl | hx
    · exact hg
    · exact h.each x hx

/-- Entering a pattern keeps rule R26, for a priority order that is a strict total order. -/
theorem groupsOk_enterPattern {tie : TieOrder} (hb : StrictTotal (before tie)) {gs : List Group}
    (h : GroupsOk tie gs) {d : BasicDescriptor} (hd : DescriptorOk d) :
    GroupsOk tie (enterPattern tie d gs) := by
  unfold enterPattern
  cases hf : findGroup gs d.mask with
  | some g =>
    obtain ⟨hmem, hg⟩ := mem_of_findGroup hf
    exact groupsOk_replaceGroup h (groupOk_mapSet (h.each g hmem) hd hg.symm)
  | none => exact groupsOk_insertGroup hb h (groupOk_singleton hd) hf

end Sys2Proof.Machine
end

