-- ==== Sys2Proof/Laws/Parameters.lean ====
section
/-! SUPPORT. The open parameters: that the operand types are finitely many, what the lines of a text
are, what `parseTemplate` answers, and that no parser or loose predicate the spec allows is left out. -/

namespace Sys2Proof.Machine

/-- Rule R10: a realisation has finitely many operand types. -/
theorem finite_operandType : Finite OperandType :=
  Finite.of_injective OperandType.code fun a b h => by
    cases a
    cases b
    exact congrArg OperandType.mk h

/-- Rule R12: every predicate that accepts at least what `accepts` accepts is an `acceptsLoose`. -/
theorem exists_looseExtra (P : Params) (f : OperandType → OperandType → Bool)
    (h : ∀ a b, P.accepts a b = true → f a b = true) :
    ({ P with looseExtra := f } : Params).acceptsLoose = f := by
  funext a b
  unfold Params.acceptsLoose
  cases ha : P.accepts a b
  · simp
  · simp [h a b ha]

theorem textLines_nil : textLines [] = [[]] :=
  rfl

theorem textLines_newline (cs : Text) : textLines ('\n' :: cs) = [] :: textLines cs := by
  rw [textLines, if_pos rfl]

/-- Every text has a first line. -/
theorem textLines_split (cs : Text) : ∃ line rest, textLines cs = line :: rest := by
  cases cs with
  | nil => exact ⟨_, _, rfl⟩
  | cons c cs =>
    rw [textLines]
    split
    · exact ⟨_, _, rfl⟩
    · split <;> exact ⟨_, _, rfl⟩

/-- A character that is no newline goes to the front of the first line. -/
theorem textLines_char {c : Char} (hc : c ≠ '\n') {cs line : Text} {rest : List Text}
    (h : textLines cs = line :: rest) : textLines (c :: cs) = (c :: line) :: rest := by
  rw [textLines, if_neg hc, h]

/-- There is one line more than there are newlines. -/
theorem length_textLines (cs : Text) : (textLines cs).length = cs.count '\n' + 1 := by
  induction cs with
  | nil => rfl
  | cons c cs ih =>
    by_cases hc : c = '\n'
    · subst hc
      simp [textLines_newline, ih]
    · obtain ⟨line, rest, h⟩ := textLines_split cs
      rw [textLines_char hc h, List.count_cons_of_ne hc, ← ih, h]
      rfl

/-- No line holds a newline. -/
theorem newline_not_mem_textLines (cs : Text) : ∀ line ∈ textLines cs, '\n' ∉ line := by
  induction cs with
  | nil => simp [textLines_nil]
  | cons c cs ih =>
    by_cases hc : c = '\n'
    · subst hc
      simpa [textLines_newline] using ih
    · obtain ⟨line, rest, h⟩ := textLines_split cs
      rw [h] at ih
      rw [textLines_char hc h]
      simpa [Ne.symm hc] using ih

/-- What `parseLines` answers: one statement per line, in order. -/
theorem parseLines_eq_some_iff (P : Params) (text : Text) (lines : List Text) (i : Nat)
    (stmts : List Stmt) :
    parseLines P text i lines = some stmts ↔
      stmts.length = lines.length ∧
      ∀ j < stmts.length, ∃ line, lines[j]? = some line ∧
        P.parseLine text (i + j) line = stmts[j]? := by
  induction lines generalizing i stmts with
  | nil =>
    cases stmts <;> simp [parseLines]
  | cons line rest ih =>
    rw [parseLines]
    constructor
    · intro h
      split at h
      · next x xs hx hxs =>
        cases h
        obtain ⟨hl, hr⟩ := (ih _ _).1 hxs
        refine ⟨by simp [hl], fun j hj => ?_⟩
        cases j with
        | zero => exact ⟨line, rfl, hx⟩
        | succ j =>
          obtain ⟨l, h₁, h₂⟩ := hr j (by simpa using hj)
          exact ⟨l, h₁, by rw [show i + (j + 1) = i + 1 + j by omega]; exact h₂⟩
      · cases h
    · rintro ⟨hl, hr⟩
      cases stmts with
      | nil => cases hl
      | cons x xs =>
        obtain ⟨l, h₁, h₂⟩ := hr 0 (by simp)
        cases h₁
        have hxs : parseLines P text (i + 1) rest = some xs := by
          refine (ih _ _).2 ⟨by simpa using hl, fun j hj => ?_⟩
          obtain ⟨l, h₃, h₄⟩ := hr (j + 1) (by simpa using hj)
          exact ⟨l, h₃, by rw [show i + 1 + j = i + (j + 1) by omega]; exact h₄⟩
        rw [show P.parseLine text i line = some x from h₂, hxs]

/-- Rule R13: `parseTemplate` answers one statement per line, in order. -/
theorem parseTemplate_eq_some_iff (P : Params) (text : Text) (stmts : List Stmt) :
    parseTemplate P text = some stmts ↔
      stmts.length = (textLines text).length ∧
      ∀ i < stmts.length, ∃ line, (textLines text)[i]? = some line ∧
        P.parseLine text i line = stmts[i]? := by
  simpa [parseTemplate] using parseLines_eq_some_iff P text (textLines text) 0 stmts

/-- Rule R13: every function that answers one statement per line is a `parseTemplate`. -/
theorem exists_parseLine (P : Params) (f : Text → Option (List Stmt))
    (h : ∀ text stmts, f text = some stmts → stmts.length = (textLines text).length) :
    parseTemplate { P with parseLine := fun text i _ => (f text).bind fun l => l[i]? } = f := by
  funext text
  cases hf : f text with
  | none =>
    obtain ⟨line, rest, hl⟩ := textLines_split text
    simp [parseTemplate, hl, parseLines, hf]
  | some stmts =>
    refine (parseTemplate_eq_some_iff _ _ _).2 ⟨h _ _ hf, fun i hi => ?_⟩
    exact ⟨(textLines text)[i]'(by rw [← h _ _ hf]; exact hi),
      List.getElem?_eq_getElem _, by simp [hf]⟩

end Sys2Proof.Machine
end

