-- ==== Sys2Proof/Laws/PerInstr.lean ====
section
/-! SUPPORT. One statement per command about the command as syntax: what it puts on the port is
well formed, that is, its payload is of the type its code's row names (rule R66). -/

namespace Sys2Proof.Laws.PortWellFormed

/-- The port value of the command is one of the table of rule R66. -/
def Statement (i : Instr) : Prop :=
  (encode i).wellFormed = true

theorem reserved (payload : Payload) : Statement (.reserved payload) := rfl
theorem tplCompile (p : Proto) : Statement (.tplCompile p) := rfl
theorem decAdd (p : Proto) : Statement (.decAdd p) := rfl
theorem decDecode (w : Word) : Statement (.decDecode w) := rfl
theorem decOperands (w : Word) : Statement (.decOperands w) := rfl
theorem regBasic (p : Proto) : Statement (.regBasic p) := rfl
theorem regExt (e : ExtendedDescriptor) : Statement (.regExt e) := rfl
theorem regLoadgrp (g : GroupRecord) : Statement (.regLoadgrp g) := rfl
theorem regPublish : Statement .regPublish := rfl
theorem regResolve (m : Text) (given : List OperandType) : Statement (.regResolve m given) := rfl
theorem regResolvel (m : Text) (given : List OperandType) : Statement (.regResolvel m given) := rfl
theorem regPrefix (p : Text) : Statement (.regPrefix p) := rfl
theorem enumAll : Statement .enumAll := rfl
theorem enumBasic : Statement .enumBasic := rfl
theorem enumExt : Statement .enumExt := rfl
theorem logRead : Statement .logRead := rfl

end Sys2Proof.Laws.PortWellFormed
end

