-- ==== Sys2Proof/Laws/Registry.lean ====
section
/-! SUPPORT. The registry: the mnemonic map after a registration, that the registrations keep rules
R28 and R29, what `regBasic` and the loop of REG.LOADGRP can do, and the tests `sigAccepts` and
`startsWithCI` in plain words. -/

namespace Sys2Proof.Machine

/-- The overload list of a mnemonic after a registration (rules R28, R110, R112). -/
theorem mapGetD_indexMnemonic (d : Descriptor) (mn : FinMap Text (List Descriptor)) (m : Text) :
    mapGetD (indexMnemonic d mn) m [] =
      if m = mnemonicOf d then mapGetD mn m [] ++ [d] else mapGetD mn m [] := by
  rw [indexMnemonic, mapGetD_mapSet]
  split_ifs with h
  · rw [h]
  · rfl

/-- A registration keeps the mnemonic map canonical. -/
theorem mapCanonical_indexMnemonic (d : Descriptor) {mn : FinMap Text (List Descriptor)}
    (h : mapCanonical textLt mn) : mapCanonical textLt (indexMnemonic d mn) :=
  mapCanonical_mapSet textLt_strictTotal h _ _

/-- A registration keeps every overload list non-empty (rule R28). -/
theorem present_indexMnemonic (d : Descriptor) {mn : FinMap Text (List Descriptor)}
    (h : ∀ m ds, mapGet mn m = some ds → ds ≠ []) :
    ∀ m ds, mapGet (indexMnemonic d mn) m = some ds → ds ≠ [] := by
  intro m ds hm
  rw [indexMnemonic, mapGet_mapSet] at hm
  split_ifs at hm with hk
  · rw [← Option.some.inj hm]
    simp
  · exact h m ds hm

/-- A registration keeps the equation of rule R29 for the mnemonic map. -/
theorem filter_indexMnemonic (d : Descriptor) {mn : FinMap Text (List Descriptor)}
    {all : List Descriptor}
    (h : ∀ m, mapGetD mn m [] = all.filter fun x => mnemonicOf x == m) (m : Text) :
    mapGetD (indexMnemonic d mn) m [] = (all ++ [d]).filter fun x => mnemonicOf x == m := by
  rw [mapGetD_indexMnemonic, List.filter_append, ← h m]
  by_cases hm : m = mnemonicOf d
  · simp [hm]
  · have hm' : (mnemonicOf d == m) = false := beq_eq_false_iff_ne.2 (Ne.symm hm)
    simp [hm, hm']

/-- REG.EXT keeps rules R22, R28, R29. -/
theorem registryOk_regExt {b : Block} (h : RegistryOk b) (e : ExtendedDescriptor) :
    RegistryOk (regExt e b) where
  basic := by simp [h.basic, asBasic]
  ext := by simp [h.ext, asExtended]
  mnem := filter_indexMnemonic _ h.mnem
  present := present_indexMnemonic _ h.present
  canonical := mapCanonical_indexMnemonic _ h.canonical
  descriptors := h.descriptors
  patterns := h.patterns

/-- Entering a basic descriptor keeps rules R22, R28, R29. -/
theorem registryOk_addBasic {b : Block} (h : RegistryOk b) {d : BasicDescriptor}
    (hd : DescriptorOk d) (hp : (entryAt b.groups d.mask d.matchBits).isSome = true) :
    RegistryOk (b.addBasic d) where
  basic := by simp [h.basic, asBasic]
  ext := by simp [h.ext, asExtended]
  mnem := filter_indexMnemonic _ h.mnem
  present := present_indexMnemonic _ h.present
  canonical := mapCanonical_indexMnemonic _ h.canonical
  descriptors x hx := by
    rcases List.mem_append.1 hx with hx | hx
    · exact h.descriptors x hx
    · rw [List.mem_singleton.1 hx]
      exact hd
  patterns x hx := by
    rcases List.mem_append.1 hx with hx | hx
    · exact h.patterns x hx
    · rw [List.mem_singleton.1 hx]
      exact hp

/-- The registry facts do not read the log. -/
theorem registryOk_addDiag {b : Block} (h : RegistryOk b) (e : Diag) :
    RegistryOk (b.addDiag e) :=
  ⟨h.basic, h.ext, h.mnem, h.present, h.canonical, h.descriptors, h.patterns⟩

/-- Entering a pattern keeps the registry facts: every pattern stays present. -/
theorem registryOk_enterPattern {b : Block} (h : RegistryOk b) (tie : TieOrder)
    (d : BasicDescriptor) :
    RegistryOk { b with groups := enterPattern tie d b.groups } where
  basic := h.basic
  ext := h.ext
  mnem := h.mnem
  present := h.present
  canonical := h.canonical
  descriptors := h.descriptors
  patterns x hx := by
    rw [entryAt_enterPattern]
    split_ifs
    · rfl
    · exact h.patterns x hx

/-- Everything `regBasic` can do (rule R110). -/
theorem regBasic_cases (tie : TieOrder) (rollback : Bool) (d : BasicDescriptor) (b : Block) :
    (entryAt b.groups d.mask d.matchBits = none ∧
      regBasic tie rollback d b =
        (.added, ({ b with groups := enterPattern tie d b.groups } : Block).addBasic d)) ∨
    (∃ first, entryAt b.groups d.mask d.matchBits = some first ∧
      regBasic tie rollback d b =
        (.dup, if rollback then b.addDiag (dupDiag d) else (b.addDiag (dupDiag d)).addBasic d)) := by
  unfold regBasic
  rcases decAdd_cases tie d b with ⟨h, he⟩ | ⟨first, h, he⟩
  · exact .inl ⟨h, by rw [he]⟩
  · refine .inr ⟨first, h, ?_⟩
    rw [he]
    cases rollback <;> rfl

/-- A match gives a descriptor of its group's mnemonic (rule R118). -/
theorem buildMatch_mnemonic {P : Params} {g : GroupRecord} {m : MatchRecord}
    {e : ExtendedDescriptor} (h : buildMatch P g m = some e) : e.mnemonic = g.mnemonic := by
  unfold buildMatch at h
  split at h
  · rw [← Option.some.inj h]
  · cases h

/-- The diagnostics of the malformed matches of a list whose first index is `i` (rule R118). -/
def badMatches (P : Params) (g : GroupRecord) (i : Nat) (ms : List MatchRecord) : List Diag :=
  ((ms.zipIdx i).filter fun x => (buildMatch P g x.1).isNone).map
    fun x => { code := .eBadMatch, mnemonic := g.mnemonic, pos := x.2 }

/-- Everything the loop of rule R118 does: the count, the list, and each field of the block. -/
theorem loadMatches_spec (P : Params) (g : GroupRecord) (ms : List MatchRecord) (i : Nat)
    (acc : LoadAcc) :
    (loadMatches P g i acc ms).count = acc.count + (ms.filterMap (buildMatch P g)).length ∧
    (loadMatches P g i acc ms).skipped = acc.skipped ++ badMatches P g i ms ∧
    ∃ mnem, (loadMatches P g i acc ms).blk =
        { acc.blk with
          all := acc.blk.all ++ (ms.filterMap (buildMatch P g)).map .extended
          ext := acc.blk.ext ++ ms.filterMap (buildMatch P g)
          mnem := mnem
          log := acc.blk.log ++ badMatches P g i ms } ∧
      ∀ m, mapGetD mnem m [] =
        if m = g.mnemonic then
          mapGetD acc.blk.mnem m [] ++ (ms.filterMap (buildMatch P g)).map .extended
        else mapGetD acc.blk.mnem m [] := by
  induction ms generalizing i acc with
  | nil => exact ⟨rfl, by simp [loadMatches, badMatches], acc.blk.mnem,
      by simp [loadMatches, badMatches], by simp⟩
  | cons r rest ih =>
    rw [loadMatches]
    cases hb : buildMatch P g r with
    | none =>
      obtain ⟨h₁, h₂, mnem, h₃, h₄⟩ := ih (i + 1)
        { acc with
          skipped := acc.skipped ++ [⟨.eBadMatch, g.mnemonic, i⟩]
          blk := acc.blk.addDiag ⟨.eBadMatch, g.mnemonic, i⟩ }
      refine ⟨?_, ?_, mnem, ?_, ?_⟩
      · simpa [hb] using h₁
      · simpa [hb, badMatches] using h₂
      · simpa [hb, badMatches, Block.addDiag] using h₃
      · simpa [hb] using h₄
    | some e =>
      have hm := buildMatch_mnemonic hb
      obtain ⟨h₁, h₂, mnem, h₃, h₄⟩ := ih (i + 1)
        { acc with count := acc.count + 1, blk := regExt e acc.blk }
      refine ⟨?_, ?_, mnem, ?_, fun m => ?_⟩
      · rw [h₁]
        simp only [hb, List.filterMap_cons, List.length_cons]
        omega
      · simpa [hb, badMatches] using h₂
      · simpa [hb, badMatches, regExt] using h₃
      · rw [h₄ m]
        simp only [regExt_mnem, mapGetD_indexMnemonic, mnemonicOf, hm, List.filterMap_cons, hb]
        split_ifs <;> simp

/-- A loop step keeps what a registration and a log entry keep (rule R118). -/
theorem loadMatches_induction (P : Params) (g : GroupRecord) {Q : Block → Prop}
    (hext : ∀ e b, Q b → Q (regExt e b))
    (hlog : ∀ i b, Q b → Q (b.addDiag ⟨.eBadMatch, g.mnemonic, i⟩)) (ms : List MatchRecord) :
    ∀ (i : Nat) (acc : LoadAcc), Q acc.blk → Q (loadMatches P g i acc ms).blk := by
  induction ms with
  | nil => exact fun _ _ h => h
  | cons r rest ih =>
    intro i acc h
    rw [loadMatches]
    cases buildMatch P g r with
    | none => exact ih _ _ (hlog _ _ h)
    | some e => exact ih _ _ (hext _ _ h)

/-- Rule R130 in plain words: equal arity, and every position accepted. -/
theorem sigAccepts_iff (accepts : OperandType → OperandType → Bool) (sig given : List OperandType) :
    sigAccepts accepts sig given = true ↔
      List.Forall₂ (fun a b => accepts a b = true) sig given := by
  induction sig generalizing given with
  | nil => cases given <;> simp [sigAccepts]
  | cons s ss ih => cases given <;> simp [sigAccepts, ih]

/-- Rule R131 by the equation of rule R29: resolution is a scan of the whole registry. -/
theorem resolveWith_eq_find? {b : Block} (h : RegistryOk b)
    (accepts : OperandType → OperandType → Bool) (m : Text) (given : List OperandType) :
    resolveWith accepts m given b = b.all.find? fun d =>
      mnemonicOf d == m && sigAccepts accepts (signatureOf d) given := by
  have hf : (b.all.filter fun d => mnemonicOf d == m).find?
        (fun d => sigAccepts accepts (signatureOf d) given) =
      b.all.find? fun d => mnemonicOf d == m && sigAccepts accepts (signatureOf d) given := by
    simp [List.find?_filter, beq_eq_decide]
  rw [← hf, ← h.mnem m, resolveWith, mapGetD]
  cases mapGet b.mnem m <;> rfl

/-- Rule R19 in plain words: `startsWithCI`. -/
theorem startsWithCI_iff (m p : Text) :
    startsWithCI m p = true ↔
      p.length ≤ m.length ∧ ∀ i < p.length, m[i]?.map foldCase = p[i]?.map foldCase := by
  induction p generalizing m with
  | nil => cases m <;> simp [startsWithCI]
  | cons c cs ih =>
    cases m with
    | nil => simp [startsWithCI]
    | cons x xs =>
      simp only [startsWithCI, Bool.and_eq_true, beq_iff_eq, ih, List.length_cons,
        Nat.add_le_add_iff_right]
      constructor
      · rintro ⟨h₁, h₂, h₃⟩
        refine ⟨h₂, fun i hi => ?_⟩
        cases i with
        | zero => simp [h₁]
        | succ j => simpa using h₃ j (by omega)
      · rintro ⟨h₂, h₃⟩
        refine ⟨by simpa using h₃ 0 (by omega), h₂, fun i hi => ?_⟩
        simpa using h₃ (i + 1) (by omega)

end Sys2Proof.Machine
end

