-- ==== Sys2Proof/Laws/Step.lean ====
section
/-! SUPPORT. What a step can do, and how a run takes its first step. -/

namespace Sys2Proof.Machine

/-- Everything a step that answers a next state can do: stay quiescent, or run the command at the head
of the stream (rules R41, R171). -/
theorem step_next_cases {s t : State} (h : step s = .next t) :
    (s.cmds = [] ∧ t = s) ∨
    ∃ c rest i, s.cmds = c :: rest ∧ decode c = .ok i ∧
      exec i { s with cmds := rest } = .next t := by
  unfold step fetch at h
  cases hc : s.cmds with
  | nil =>
    rw [hc] at h
    cases h
    exact .inl ⟨rfl, rfl⟩
  | cons c rest =>
    rw [hc] at h
    dsimp only at h
    cases hd : decode c with
    | ok i =>
      rw [hd] at h
      exact .inr ⟨c, rest, i, rfl, hd, h⟩
    | error e =>
      rw [hd] at h
      cases e
      cases h

/-- A run whose first step answers a next state goes on from there. -/
theorem host_run_next (M : Host.Core) (n : Nat) (s t : M.State) (h : M.step s = .next t) :
    M.run (n + 1) s = M.run n t := by
  rw [Host.Core.run.eq_2, h]

/-- A run whose first step is refused is refused. -/
theorem host_run_refused (M : Host.Core) (n : Nat) (s : M.State) (r : M.Refusal)
    (h : M.step s = .refused r) : M.run (n + 1) s = .refused r := by
  rw [Host.Core.run.eq_2, h]

/-- `host_run_next` for this machine. -/
theorem core_run_next {n : Nat} {s t : State} (h : step s = .next t) :
    core.run (n + 1) s = core.run n t :=
  host_run_next core n s t h

/-- `host_run_refused` for this machine. -/
theorem core_run_refused {n : Nat} {s : State} {r : Refusal} (h : step s = .refused r) :
    core.run (n + 1) s = .refused r :=
  host_run_refused core n s r h

/-- A run of no steps. -/
theorem core_run_zero (s : State) : core.run 0 s = .next s :=
  rfl

end Sys2Proof.Machine
end

