-- ==== Sys2Proof/Laws/Template.lean ====
section
/-! SUPPORT. Templates: the bits of mask and match, the count of fixed bits, what `compile` answers,
the positions of a placeholder class. -/

namespace Sys2Proof.Machine

/-- The bits of `bitsWhere`: bit `31 - i` tells whether the character of index `i` satisfies `p`. -/
theorem getLsbD_bitsWhere (p : Char → Bool) (t : Text) (start i : Nat)
    (h : start + t.length ≤ 32) (hi : i < 32) :
    (bitsWhere p start t).getLsbD (31 - i) = (decide (start ≤ i) && (t[i - start]?).any p) := by
  induction t generalizing start with
  | nil => simp [bitsWhere]
  | cons c cs ih =>
    simp only [List.length_cons] at h
    rw [bitsWhere, BitVec.getLsbD_or, ih (start + 1) (by omega)]
    rcases Nat.lt_trichotomy i start with hlt | rfl | hlt
    · have h₁ : ¬ start ≤ i := by omega
      have h₂ : ¬ start + 1 ≤ i := by omega
      cases hp : p c
      · simp [h₁, h₂]
      · have : 31 - i - (31 - start) ≠ 0 := by omega
        simp [h₁, h₂]
        omega
    · have h₀ : 31 - i < 32 := by omega
      cases hp : p c <;> simp [hp, h₀]
    · obtain ⟨k, rfl⟩ : ∃ k, i = start + 1 + k := ⟨i - start - 1, by omega⟩
      have h₃ : start + 1 + k - start = k + 1 := by omega
      have h₄ : start + 1 + k - (start + 1) = k := by omega
      have h₅ : start ≤ start + 1 + k := by omega
      rw [h₃, h₄]
      cases hp : p c <;> simp [h₅]
      intro h₆
      omega

/-- Rule R58, the mask. -/
theorem getLsbD_maskOf {t : Text} (h : t.length = 32) {i : Nat} (hi : i < 32) :
    (maskOf t).getLsbD (31 - i) = decide (t[i]? = some '0' ∨ t[i]? = some '1') := by
  rw [maskOf, getLsbD_bitsWhere _ _ _ _ (by omega) hi]
  cases t[i - 0]? <;> simp [beq_eq_decide]

/-- Rule R58, the match. -/
theorem getLsbD_matchOf {t : Text} (h : t.length = 32) {i : Nat} (hi : i < 32) :
    (matchOf t).getLsbD (31 - i) = decide (t[i]? = some '1') := by
  rw [matchOf, getLsbD_bitsWhere _ _ _ _ (by omega) hi]
  cases t[i - 0]? <;> simp [beq_eq_decide]

/-- Two words are equal when they agree at every bit `31 - i`. -/
theorem word_ext {a b : Word} (h : ∀ i < 32, a.getLsbD (31 - i) = b.getLsbD (31 - i)) : a = b := by
  refine BitVec.eq_of_getLsbD_eq fun j hj => ?_
  have := h (31 - j) (by omega)
  rwa [show 31 - (31 - j) = j by omega] at this

/-- Rule R59: the match lies within the mask. -/
theorem maskOf_and_matchOf {t : Text} (h : t.length = 32) :
    maskOf t &&& matchOf t = matchOf t := by
  refine word_ext fun i hi => ?_
  rw [BitVec.getLsbD_and, getLsbD_maskOf h hi, getLsbD_matchOf h hi]
  by_cases h1 : t[i]? = some '1' <;> simp [h1]

/-- `popcount` counted from bit 31 down. -/
theorem popcount_eq_countP (w : Word) :
    popcount w = (List.range 32).countP fun i => w.getLsbD (31 - i) := by
  have h : (List.range 32).map (fun i => 31 - i) = (List.range 32).reverse := by decide
  rw [popcount, ← List.countP_reverse, ← h, List.countP_map]
  rfl

/-- Counting over the indices of a list is counting over the list. -/
theorem countP_range_getElem? (p : Char → Bool) (t : Text) :
    ((List.range t.length).countP fun i => (t[i]?).any p) = t.countP p := by
  induction t with
  | nil => rfl
  | cons c cs ih =>
    rw [List.length_cons, List.range_succ_eq_map, List.countP_cons, List.countP_map, List.countP_cons,
      ← ih]
    simp [Function.comp_def]

/-- The number of fixed bits is the number of literals of the template (rule R60). -/
theorem popcount_maskOf {t : Text} (h : t.length = 32) :
    popcount (maskOf t) = t.countP fun c => c == '0' || c == '1' := by
  rw [popcount_eq_countP, ← countP_range_getElem? _ t, h]
  refine List.countP_congr fun i hi => ?_
  rw [maskOf, getLsbD_bitsWhere _ _ _ _ (by omega) (List.mem_range.1 hi)]
  simp

/-- `compile` on a template of another length (rule R80). -/
theorem compile_of_length {p : Proto} (h : p.template.length ≠ 32) :
    compile p = .error ⟨.eTplLength, p.mnemonic, p.template.length⟩ := by
  rw [compile, if_pos h]

/-- `compile` on a template of 32 characters (rule R80). -/
theorem compile_of_length_eq {p : Proto} (h : p.template.length = 32) :
    compile p = match firstBadChar 0 p.template with
      | some i => .error ⟨.eTplChar, p.mnemonic, i⟩
      | none => .ok (descriptorOf p) := by
  unfold compile
  exact if_neg (by simp [h])

/-- There is no bad character exactly when every character is in the alphabet. -/
theorem firstBadChar_eq_none_iff (t : Text) (start : Nat) :
    firstBadChar start t = none ↔ t.all Template.inAlphabet = true := by
  induction t generalizing start with
  | nil => simp [firstBadChar]
  | cons c cs ih =>
    rw [firstBadChar]
    cases h : Template.inAlphabet c <;> simp [h, ih]

/-- The index of the first bad character. -/
theorem firstBadChar_append {pre post : Text} {c : Char}
    (hpre : pre.all Template.inAlphabet = true) (hc : Template.inAlphabet c = false)
    (start : Nat) : firstBadChar start (pre ++ c :: post) = some (start + pre.length) := by
  induction pre generalizing start with
  | nil => simp [firstBadChar, hc]
  | cons x xs ih =>
    simp only [List.all_cons, Bool.and_eq_true] at hpre
    rw [List.cons_append, firstBadChar, if_pos hpre.1, ih hpre.2]
    simp only [List.length_cons]
    congr 1
    omega

/-- A bad character stands at the index reported, within the template. -/
theorem firstBadChar_lt {t : Text} {start i : Nat} (h : firstBadChar start t = some i) :
    start ≤ i ∧ i < start + t.length := by
  induction t generalizing start with
  | nil => simp [firstBadChar] at h
  | cons c cs ih =>
    rw [firstBadChar] at h
    split_ifs at h
    · have := ih h
      simp only [List.length_cons]
      omega
    · simp only [Option.some.injEq] at h
      simp only [List.length_cons]
      omega

/-- The alphabet, character by character (rule R56). -/
theorem inAlphabet_iff (c : Char) :
    Template.inAlphabet c = true ↔ c = '0' ∨ c = '1' ∨ c = 'f' ∨ c = 's' ∨ c = 't' := by
  simp [Template.inAlphabet, or_assoc]

/-- A well-formed template, said twice (rule R56). -/
theorem wellFormed_iff (t : Text) :
    Template.wellFormed t = true ↔ t.length = 32 ∧ t.all Template.inAlphabet = true := by
  simp [Template.wellFormed]

/-- `compile` succeeds exactly on well-formed templates, and gives the descriptor of the proto. -/
theorem compile_eq_ok_iff (p : Proto) (d : BasicDescriptor) :
    compile p = .ok d ↔ Template.wellFormed p.template = true ∧ d = descriptorOf p := by
  rw [wellFormed_iff]
  by_cases h : p.template.length = 32
  · rw [compile_of_length_eq h]
    cases hf : firstBadChar 0 p.template with
    | none =>
      rw [firstBadChar_eq_none_iff] at hf
      simp [h, hf, eq_comm]
    | some i =>
      have : ¬ p.template.all Template.inAlphabet = true := by
        rw [← firstBadChar_eq_none_iff _ 0, hf]
        simp
      simp [this]
  · rw [compile_of_length h]
    simp [h]

/-- `compile` fails exactly on the other templates. -/
theorem compile_cases (p : Proto) :
    (Template.wellFormed p.template = true ∧ compile p = .ok (descriptorOf p)) ∨
    (Template.wellFormed p.template = false ∧ ∃ e, compile p = .error e ∧ DiagOk e) := by
  cases hw : Template.wellFormed p.template
  · refine .inr ⟨rfl, ?_⟩
    by_cases h : p.template.length = 32
    · cases hf : firstBadChar 0 p.template with
      | none =>
        have := (wellFormed_iff _).2 ⟨h, (firstBadChar_eq_none_iff _ _).1 hf⟩
        simp [hw] at this
      | some i =>
        refine ⟨_, by rw [compile_of_length_eq h, hf], ?_⟩
        have := firstBadChar_lt hf
        simp only [DiagOk]
        omega
    · exact ⟨_, compile_of_length h, h⟩
  · exact .inl ⟨rfl, (compile_eq_ok_iff _ _).2 ⟨hw, rfl⟩⟩

/-- The descriptor `compile` gives is one of rule R22. -/
theorem descriptorOk_of_compile {p : Proto} {d : BasicDescriptor} (h : compile p = .ok d) :
    DescriptorOk d := by
  obtain ⟨hw, rfl⟩ := (compile_eq_ok_iff _ _).1 h
  exact ⟨hw, rfl, rfl, maskOf_and_matchOf ((wellFormed_iff _).1 hw).1⟩

/-- The positions of a class, index by index (rule R60). -/
theorem positionsFrom_eq (c : Char) (t : Text) (start : Nat) :
    positionsFrom start c t =
      ((List.range t.length).filter fun i => t[i]? == some c).map fun i => bitOf (start + i) := by
  induction t generalizing start with
  | nil => rfl
  | cons x xs ih =>
    rw [positionsFrom, ih, List.length_cons, List.range_succ_eq_map, List.filter_cons,
      List.filter_map]
    by_cases h : x = c <;> simp [h, Function.comp_def, Nat.add_assoc, Nat.add_comm 1]

/-- The width of a class is how often its letter occurs (rule R60). -/
theorem fieldWidth_eq_count (t : Text) (c : Char) : fieldWidth t c = t.count c := by
  have h : ∀ start, (positionsFrom start c t).length = t.count c := by
    induction t with
    | nil => simp [positionsFrom]
    | cons x xs ih =>
      intro start
      rw [positionsFrom, List.count_cons]
      split_ifs <;> simp_all
  exact h 0

/-- Gathering one more bit (rule R61). -/
theorem gatherBits_append (w : Word) (ps : List Nat) (b : Nat) :
    gatherBits w (ps ++ [b]) = 2 * gatherBits w ps + (w.getLsbD b).toNat := by
  simp [gatherBits, List.foldl_append]

end Sys2Proof.Machine
end

