-- ==== Sys2Proof/Tests/Slice0.lean ====
section
/-! SUPPORT. Tests of the model: the refusals of the static checks, the command codes written out, the
spec's own vectors (`spec/95_test_vectors.md`, V<n> and P<n>), and a witness for the hypotheses of each
statement. Expected values come from the spec. -/

namespace Sys2Proof.Tests

open Sys2Proof.Machine

/-! ### Helpers: the sample parameters of `95_test_vectors.md` section 2 -/

def txt (s : String) : Text := s.toList

/-- The first operand type. How many more there are is open, so a test that tells types apart takes
them as variables. -/
def REG : OperandType := ⟨⟨0, Nat.succ_pos _⟩⟩

/-- The sample `parseSignature`: a list of names, each the name of a type. -/
def parseNames (types : List (Text × OperandType)) : List Text → Option (List OperandType)
  | [] => some []
  | n :: ns =>
    match types.lookup n, parseNames types ns with
    | some t, some ts => some (t :: ts)
    | _, _ => none

/-- Whether a text holds two question marks in a row. -/
def hasMarks : Text → Bool
  | '?' :: '?' :: _ => true
  | _ :: cs => hasMarks cs
  | [] => false

/-- The sample parameters with the spec's defaults, for a table of type names. A text that holds two
question marks parses at no line. -/
def sample (types : List (Text × OperandType)) : Params where
  tieOrder := .ascUnsigned
  accepts a b := a == b
  looseExtra _ _ := true
  parseSignature r := parseNames types r.names
  parseLine t _ line := if hasMarks t then none else some ⟨line⟩
  collisionRollback := false

def proto (m : String) (sig : List OperandType) (f : Format) (ctl : Bool) (t : String) : Proto :=
  { mnemonic := txt m, signature := sig, title := [], description := [], format := f,
    template := txt t, isControlFlow := ctl, sim := ⟨7⟩ }

def addP : Proto := proto "add" [REG, REG, REG] .r false "000000ssssstttttfffff00000100000"
def sllP : Proto := proto "sll" [REG, REG, REG] .r false "00000000000sssssfffffttttt000000"
def nopP : Proto := proto "nop" [] .r false "00000000000000000000000000000000"
def lwP : Proto := proto "lw" [REG, REG, REG] .i false "100011tttttfffffssssssssssssssss"
def opxP : Proto := proto "opx" [REG] .j false "010101ffffffffffffffffffffffffff"
def opyP : Proto := proto "opy" [REG] .j false "010101ffffffffffffffffffff000011"
def opzP : Proto := proto "opz" [] .j false "010101ffffffffffffffffffffffffff"
def bad1P : Proto := proto "bad1" [] .j false "010101fffffffffffffffffffffffff"
def bad2P : Proto := proto "bad2" [] .j false "010101xfffffffffffffffffffffffff"
def tieBP : Proto := proto "B" [] .j false "010101000000ffffffffffffffffffff"
def tieCP : Proto := proto "C" [] .j false "ffffffffffffffffffff000000000011"

def stateOf (b : Block) : State := { blk := b, cmds := [], rsp := none }

/-- A block as commands leave it: `add`, `nop` and an extended `nop` registered, and `opx`, `opy`
entered in the decoder alone. -/
def filled : Block :=
  { phase := .build
    all := [.basic (descriptorOf addP), .basic (descriptorOf nopP),
      .extended { ExtendedDescriptor.zero with mnemonic := txt "nop" }]
    basic := [descriptorOf addP, descriptorOf nopP]
    ext := [{ ExtendedDescriptor.zero with mnemonic := txt "nop" }]
    mnem := [(txt "add", [.basic (descriptorOf addP)]),
      (txt "nop", [.basic (descriptorOf nopP),
        .extended { ExtendedDescriptor.zero with mnemonic := txt "nop" }])]
    groups := [⟨0xFFFFFFFF, [(0, descriptorOf nopP)]⟩, ⟨0xFC0007FF, [(0x20, descriptorOf addP)]⟩,
      ⟨0xFC00003F, [(0x54000003, descriptorOf opyP)]⟩,
      ⟨0xFC000000, [(0x54000000, descriptorOf opxP)]⟩]
    log := [] }

def filledS : State := stateOf filled

/-- The same block, published. -/
def sealedS : State := stateOf { filled with phase := .published }

def blkOf : Outcome → Option Block
  | .next t => some t.blk
  | .fault _ => none
  | .refused _ => none

def rspOf : Outcome → Option Response
  | .next t => t.rsp
  | .fault _ => none
  | .refused _ => none

/-! ### The static checks refuse what they should -/

theorem test_wellFormed_template : Template.wellFormed addP.template = true := by decide
theorem test_illFormed_template_length : Template.wellFormed bad1P.template = false := by decide
theorem test_illFormed_template_char : Template.wellFormed bad2P.template = false := by decide
theorem test_illFormed_group : GroupRecord.zero.wellFormed = false := by decide
theorem test_illFormed_commands :
    (Instr.tplCompile bad1P).wellFormed = false ∧ (Instr.decAdd bad2P).wellFormed = false ∧
    (Instr.regBasic bad1P).wellFormed = false ∧
    (Instr.regLoadgrp GroupRecord.zero).wellFormed = false := by decide
theorem test_mistyped_payloads :
    ∀ c ∈ ([⟨1, .word 0⟩, ⟨2, .none⟩, ⟨3, .none⟩, ⟨4, .string []⟩, ⟨5, .word 0⟩, ⟨6, .none⟩,
      ⟨7, .none⟩, ⟨8, .word 0⟩, ⟨9, .string []⟩, ⟨10, .none⟩, ⟨11, .query [] []⟩, ⟨12, .word 0⟩,
      ⟨13, .word 0⟩, ⟨14, .word 0⟩, ⟨15, .word 0⟩] : List Command), c.wellFormed = false := by
  decide

/-! ### The command codes of rule R66, bit by bit, and the numbers of the closed tags -/

theorem test_decode_codes :
    decode ⟨0b0000#4, .word 5⟩ = .ok (.reserved (.word 5)) ∧
    decode ⟨0b0001#4, .proto addP⟩ = .ok (.tplCompile addP) ∧
    decode ⟨0b0010#4, .proto addP⟩ = .ok (.decAdd addP) ∧
    decode ⟨0b0011#4, .word 0x012A4020⟩ = .ok (.decDecode 0x012A4020) ∧
    decode ⟨0b0100#4, .word 0x012A4020⟩ = .ok (.decOperands 0x012A4020) ∧
    decode ⟨0b0101#4, .proto addP⟩ = .ok (.regBasic addP) ∧
    decode ⟨0b0110#4, .ext .zero⟩ = .ok (.regExt .zero) ∧
    decode ⟨0b0111#4, .group .zero⟩ = .ok (.regLoadgrp .zero) ∧
    decode ⟨0b1000#4, .none⟩ = .ok .regPublish ∧
    decode ⟨0b1001#4, .query (txt "jr") [REG]⟩ = .ok (.regResolve (txt "jr") [REG]) ∧
    decode ⟨0b1010#4, .query (txt "jr") [REG]⟩ = .ok (.regResolvel (txt "jr") [REG]) ∧
    decode ⟨0b1011#4, .string (txt "AD")⟩ = .ok (.regPrefix (txt "AD")) ∧
    decode ⟨0b1100#4, .none⟩ = .ok .enumAll ∧
    decode ⟨0b1101#4, .none⟩ = .ok .enumBasic ∧
    decode ⟨0b1110#4, .none⟩ = .ok .enumExt ∧
    decode ⟨0b1111#4, .none⟩ = .ok .logRead :=
  ⟨rfl, rfl, rfl, rfl, rfl, rfl, rfl, rfl, rfl, rfl, rfl, rfl, rfl, rfl, rfl, rfl⟩

theorem test_numbers :
    Format.r.number = 0 ∧ Format.i.number = 1 ∧ Format.iBranch.number = 2 ∧ Format.j.number = 3 ∧
    Phase.build.bit = 0 ∧ Phase.published.bit = 1 ∧
    Status.ok.bits = 0 ∧ Status.none.bits = 1 ∧ Status.err.bits = 2 ∧ Status.frozen.bits = 3 ∧
    Status.badcmd.bits = 4 ∧
    DiagCode.eTplLength.number = 1 ∧ DiagCode.eTplChar.number = 2 ∧
    DiagCode.eDupPattern.number = 3 ∧ DiagCode.eBadGroup.number = 4 ∧
    DiagCode.eBadMatch.number = 5 := by decide

/-- Every row of the table is fetched and run, as the first command after reset. -/
theorem test_every_row_runs_after_reset :
    ∀ k ∈ List.range 16, (blkOf (step (State.reset.withFetchWord 8 k))).isSome = true := by
  decide

/-! ### TPL.COMPILE: V10, V13, V14, V18 -/

theorem test_compile_V10 : rspOf (exec (.tplCompile addP) State.reset) =
    some ⟨.ok, .basicDescriptor ⟨txt "add", [REG, REG, REG], [], [], .r,
      txt "000000ssssstttttfffff00000100000", 0xFC0007FF, 0x00000020, false, ⟨7⟩⟩⟩ := by
  decide

theorem test_compile_V18 :
    (compile (proto "x" [] .r false "000000 sssss ttttt fffff 00000 1")).toOption = none ∧
    rspOf (exec (.tplCompile (proto "x" [] .r false "000000 sssss ttttt fffff 00000 1"))
      State.reset) = some ⟨.err, .diag ⟨.eTplChar, txt "x", 6⟩⟩ := by
  decide

theorem test_masks_V13 :
    maskOf (txt "ff0f0000000000000000000000000000") = 0x2FFFFFFF ∧
    positions (txt "ff0f0000000000000000000000000000") 'f' = [31, 30, 28] ∧
    firstBadChar 0 (txt "000000SSSSSTTTTTFFFFF00000100000") = some 6 := by
  decide

/-! ### Fields: V47, V48, V49 -/

theorem test_fields_V47 :
    operandFields (txt "100011tttttfffffssssssssssssssss") 0x8D280004 =
      [⟨8, 5⟩, ⟨4, 16⟩, ⟨9, 5⟩] := by decide

theorem test_fields_V48_V49 :
    fieldValue (txt "ff0f0000000000000000000000000000") 'f' 0xD0000000 = ⟨7, 3⟩ ∧
    fieldValue (txt "ff0f0000000000000000000000000000") 'f' 0x90000000 = ⟨5, 3⟩ := by decide

/-! ### The decoder: V20, V21, V30, V31, V41, V70, V71, V75, V76 -/

theorem test_decAdd_V20 : (blkOf (exec (.decAdd opxP) State.reset)).map Block.groups =
    some [⟨0xFC000000, [(0x54000000, descriptorOf opxP)]⟩] := by decide

theorem test_decAdd_V21 :
    let s := stateOf { Block.reset with groups := [⟨0xFC000000, [(0x54000000, descriptorOf opxP)]⟩] }
    rspOf (exec (.decAdd opzP) s) = some ⟨.err, .diag ⟨.eDupPattern, txt "opz", 0⟩⟩ ∧
    (blkOf (exec (.decAdd opzP) s)).map Block.groups = some s.blk.groups ∧
    (blkOf (exec (.decAdd opzP) s)).map (fun b => b.log.length) = some 1 := by decide

theorem test_decDecode_V31 : rspOf (exec (.decDecode 0) filledS) =
    some ⟨.ok, .basicDescriptor (descriptorOf nopP)⟩ := by decide

theorem test_decDecode_V41 : rspOf (exec (.decDecode 0xFFFFFFFF) filledS) =
    some ⟨.none, .none⟩ := by decide

theorem test_decOperands_V30 : rspOf (exec (.decOperands 0x012A4020) filledS) =
    some ⟨.ok, .operands (descriptorOf addP) [⟨8, 5⟩, ⟨9, 5⟩, ⟨10, 5⟩]⟩ := by decide

theorem test_priority_V70_V71 :
    let gs := decoderOf .ascUnsigned [descriptorOf opxP, descriptorOf opyP]
    decodeWord gs 0x54000003 = some (descriptorOf opyP) ∧
    decodeWord gs 0x54000000 = some (descriptorOf opxP) := by decide

theorem test_tie_V75_V76 :
    (decodeWord (decoderOf .ascUnsigned [descriptorOf tieBP, descriptorOf tieCP]) 0x54000003).map
      BasicDescriptor.mnemonic = some (txt "C") ∧
    (decodeWord (decoderOf .descUnsigned [descriptorOf tieBP, descriptorOf tieCP]) 0x54000003).map
      BasicDescriptor.mnemonic = some (txt "B") ∧
    (decodeWord (decoderOf .ascSigned [descriptorOf tieBP, descriptorOf tieCP]) 0x54000003).map
      BasicDescriptor.mnemonic = some (txt "B") ∧
    (decodeWord (decoderOf .descSigned [descriptorOf tieBP, descriptorOf tieCP]) 0x54000003).map
      BasicDescriptor.mnemonic = some (txt "C") := by decide

/-! ### Population: rule R111's example, P3 steps 5 and 7, rule R113's example, P4 -/

theorem test_regBasic_R111 : (blkOf (exec (.regBasic addP) State.reset)) =
    some { Block.reset with
      all := [.basic (descriptorOf addP)], basic := [descriptorOf addP],
      mnem := [(txt "add", [.basic (descriptorOf addP)])],
      groups := [⟨0xFC0007FF, [(0x20, descriptorOf addP)]⟩] } := by decide

theorem test_regBasic_P3_step5 :
    let s := stateOf { Block.reset with groups := [⟨0xFC000000, [(0x54000000, descriptorOf opxP)]⟩] }
    (blkOf (regBasicWith .ascUnsigned false opzP s)).map Block.basic = some [descriptorOf opzP] ∧
    (blkOf (regBasicWith .ascUnsigned true opzP s)).map Block.basic = some [] ∧
    rspOf (regBasicWith .ascUnsigned false opzP s) =
      some ⟨.err, .diag ⟨.eDupPattern, txt "opz", 0⟩⟩ := by decide

theorem test_regExt_appends :
    (blkOf (exec (.regExt { ExtendedDescriptor.zero with mnemonic := txt "add" }) filledS)).map
      (fun b => (mapGetD b.mnem (txt "add") []).length) = some 2 := by decide

def m0 : MatchRecord :=
  ⟨⟨[txt "REG", txt "IMM16S"]⟩, some (txt "addiu RG1, $0, VL2"), none, none, none⟩
def m1 : MatchRecord := ⟨⟨[txt "REG", txt "IMM16U"]⟩, some (txt "ori RG1, $0, ??"), none, none, none⟩
def m2 : MatchRecord :=
  ⟨⟨[txt "REG", txt "IMM32"]⟩, some (txt "lui $1, VHL2\nori RG1, $1, VL2U"), none,
    some (txt "Load 32-bit immediate"), none⟩
def liG : GroupRecord := ⟨txt "li", some (txt "Load immediate"), none, [m0, m1, m2]⟩

theorem test_loadgrp_P4_step1 (IMM16S IMM16U IMM32 : OperandType) :
    let P := sample [(txt "REG", REG), (txt "IMM16S", IMM16S), (txt "IMM16U", IMM16U),
      (txt "IMM32", IMM32)]
    rspOf (regLoadgrpWith P liG State.reset) =
      some ⟨.ok, .loaded 2 [⟨.eBadMatch, txt "li", 1⟩]⟩ ∧
    (blkOf (regLoadgrpWith P liG State.reset)).map Block.ext =
      some [⟨txt "li", [REG, IMM16S], txt "Load immediate", [], [⟨txt "addiu RG1, $0, VL2"⟩], none⟩,
        ⟨txt "li", [REG, IMM32], txt "Load 32-bit immediate", [],
          [⟨txt "lui $1, VHL2"⟩, ⟨txt "ori RG1, $1, VL2U"⟩], none⟩] :=
  ⟨rfl, rfl⟩

theorem test_loadgrp_P4_step3 :
    rspOf (regLoadgrpWith (sample [(txt "REG", REG)]) ⟨txt "move", none, none,
      [⟨⟨[txt "REG", txt "BOGUS"]⟩, some (txt "addu RG1, $0, RG2"), none, none, none⟩,
       ⟨⟨[txt "REG", txt "REG"]⟩, none, none, none, none⟩,
       ⟨⟨[txt "REG", txt "REG"]⟩, some (txt "addu RG1, $0, RG2"), some (txt "??"), none, none⟩]⟩
      State.reset) =
    some ⟨.ok, .loaded 0 [⟨.eBadMatch, txt "move", 0⟩, ⟨.eBadMatch, txt "move", 1⟩,
      ⟨.eBadMatch, txt "move", 2⟩]⟩ := by decide

/-- Rule R13: the lines stand between the newlines, an empty one included. -/
theorem test_textLines :
    textLines (txt "lui $1, VHL2\nori RG1, $1, VL2U") =
      [txt "lui $1, VHL2", txt "ori RG1, $1, VL2U"] ∧
    textLines (txt "\nnop") = [[], txt "nop"] ∧
    parseTemplate (sample []) (txt "nop\n??") = none := by decide

theorem test_publish_then_frozen :
    (blkOf (exec .regPublish filledS)).map Block.phase = some .published ∧
    rspOf (exec (.regBasic bad1P) sealedS) = some ⟨.frozen, .none⟩ ∧
    blkOf (exec (.regBasic bad1P) sealedS) = some sealedS.blk := by decide

/-! ### Lookup: V50 to V54, V60, V64, V66 -/

/-- The overloads of `add` of program P2 and one of two operands. -/
def overloads (IMM16S IMM32 : OperandType) : Block :=
  { Block.reset with mnem := [(txt "add",
    [.basic (descriptorOf addP),
     .extended { ExtendedDescriptor.zero with mnemonic := txt "add", signature := [REG, REG, IMM16S] },
     .extended { ExtendedDescriptor.zero with mnemonic := txt "add", signature := [REG, REG, IMM32] },
     .extended { ExtendedDescriptor.zero with mnemonic := txt "add", signature := [REG, REG] }])] }

theorem mapGet_overloads (IMM16S IMM32 : OperandType) :
    mapGet (overloads IMM16S IMM32).mnem (txt "ADD") = none ∧
    mapGet (overloads IMM16S IMM32).mnem (txt "add") =
      some [.basic (descriptorOf addP),
        .extended ⟨txt "add", [REG, REG, IMM16S], [], [], [], none⟩,
        .extended ⟨txt "add", [REG, REG, IMM32], [], [], [], none⟩,
        .extended ⟨txt "add", [REG, REG], [], [], [], none⟩] :=
  ⟨rfl, rfl⟩

theorem test_resolve_V50_V52_V54_V56 (IMM16S IMM16U IMM32 LABEL : OperandType)
    (accepts : OperandType → OperandType → Bool) (h₁ : accepts REG REG = true)
    (h₂ : accepts REG IMM16U = false) (h₃ : accepts IMM16S IMM16U = false)
    (h₄ : accepts IMM32 IMM16U = true) (h₅ : accepts REG LABEL = false)
    (h₆ : accepts IMM16S LABEL = false) (h₇ : accepts IMM32 LABEL = false) :
    let resolve m given := rspOf (resolveBy accepts m given (stateOf (overloads IMM16S IMM32)))
    resolve (txt "add") [REG, REG, REG] =
      some ⟨.ok, .descriptor (.basic (descriptorOf addP))⟩ ∧
    resolve (txt "add") [REG, REG, IMM16U] =
      some ⟨.ok, .descriptor (.extended ⟨txt "add", [REG, REG, IMM32], [], [], [], none⟩)⟩ ∧
    resolve (txt "add") [REG, REG, LABEL] = some ⟨.none, .none⟩ ∧
    resolve (txt "ADD") [REG, REG, REG] = some ⟨.none, .none⟩ := by
  obtain ⟨hu, hl⟩ := mapGet_overloads IMM16S IMM32
  simp [resolveBy, resolveWith, stateOf, hu, hl, signatureOf, descriptorOf, addP, proto, sigAccepts,
    rspOf, respond, respondWith, State.complete, h₁, h₂, h₃, h₄, h₅, h₆, h₇]

/-- Under the sample `acceptsLoose`, always true, the first overload of the arity is the answer. -/
theorem test_resolvel_V54_V55_V59 (IMM16S IMM32 LABEL FREG : OperandType) :
    let resolve m given :=
      rspOf (resolveBy (fun _ _ => true) m given (stateOf (overloads IMM16S IMM32)))
    resolve (txt "add") [REG, REG, LABEL] =
      some ⟨.ok, .descriptor (.basic (descriptorOf addP))⟩ ∧
    resolve (txt "add") [REG] = some ⟨.none, .none⟩ ∧
    resolve (txt "add") [FREG, FREG] =
      some ⟨.ok, .descriptor (.extended ⟨txt "add", [REG, REG], [], [], [], none⟩)⟩ :=
  ⟨rfl, rfl, rfl⟩

theorem test_prefix_V60_V63_V64 :
    rspOf (exec (.regPrefix (txt "AD")) filledS) =
      some ⟨.ok, .descriptors [.basic (descriptorOf addP)]⟩ ∧
    rspOf (exec (.regPrefix []) filledS) = some ⟨.ok, .descriptors filled.all⟩ ∧
    rspOf (exec (.regPrefix (txt "addiu")) filledS) = some ⟨.ok, .descriptors []⟩ := by decide

theorem test_enumerations_V66 :
    rspOf (exec .enumAll filledS) = some ⟨.ok, .descriptors filled.all⟩ ∧
    rspOf (exec .enumBasic filledS) =
      some ⟨.ok, .basics [descriptorOf addP, descriptorOf nopP]⟩ ∧
    rspOf (exec .enumExt State.reset) = some ⟨.ok, .extendeds []⟩ := by decide

theorem test_reserved_and_log :
    rspOf (exec (.reserved (.word 3)) sealedS) = some ⟨.badcmd, .none⟩ ∧
    rspOf (exec .logRead (stateOf { filled with log := [⟨.eBadGroup, [], 0⟩] })) =
      some ⟨.ok, .diags [⟨.eBadGroup, [], 0⟩]⟩ := by decide

/-! ### A state with the invariant -/

theorem descriptorOk_sample :
    DescriptorOk (descriptorOf addP) ∧ DescriptorOk (descriptorOf nopP) ∧
    DescriptorOk (descriptorOf opxP) ∧ DescriptorOk (descriptorOf opyP) :=
  ⟨⟨by decide, rfl, rfl, by decide⟩, ⟨by decide, rfl, rfl, by decide⟩,
    ⟨by decide, rfl, rfl, by decide⟩, ⟨by decide, rfl, rfl, by decide⟩⟩

theorem groupOk_one {m k : Word} {d : BasicDescriptor} (hm : d.mask = m) (hk : d.matchBits = k)
    (hd : DescriptorOk d) : GroupOk ⟨m, [(k, d)]⟩ :=
  ⟨by simp, by simp [mapCanonical], fun e he => by
    rw [List.mem_singleton.1 he]
    exact ⟨hm, hk, hd⟩⟩

theorem groupsOk_filled (tie : TieOrder) : GroupsOk tie filled.groups where
  distinct := by decide
  sorted := by cases tie <;> decide
  each g hg := by
    obtain ⟨h₁, h₂, h₃, h₄⟩ := descriptorOk_sample
    simp only [filled, List.mem_cons, List.not_mem_nil, or_false] at hg
    rcases hg with rfl | rfl | rfl | rfl
    · exact groupOk_one (by decide) (by decide) h₂
    · exact groupOk_one (by decide) (by decide) h₁
    · exact groupOk_one (by decide) (by decide) h₄
    · exact groupOk_one (by decide) (by decide) h₃

theorem registryOk_filled : RegistryOk filled where
  basic := by decide
  ext := by decide
  mnem m := by
    by_cases h₁ : txt "add" = m
    · rw [← h₁]; decide
    · by_cases h₂ : txt "nop" = m
      · rw [← h₂]; decide
      · have h₃ : ∀ d ∈ filled.all, (mnemonicOf d == m) = false := by
          intro d hd
          have : mnemonicOf d = txt "add" ∨ mnemonicOf d = txt "nop" := by
            revert d
            decide
          rcases this with h | h <;> rw [h]
          · exact beq_eq_false_iff_ne.2 h₁
          · exact beq_eq_false_iff_ne.2 h₂
        rw [List.filter_eq_nil_iff.2 fun d hd => by rw [h₃ d hd]; simp]
        simp only [mapGetD, filled, mapGet, h₁, h₂, if_false, Option.getD_none]
  present m ds h := by
    have := mem_of_mapGet h
    revert h
    rintro - rfl
    revert this
    simp [filled]
  canonical := by simp only [mapCanonical, filled]; decide
  descriptors d hd := by
    rcases List.mem_cons.1 hd with rfl | hd
    · exact descriptorOk_sample.1
    · rw [List.mem_singleton.1 hd]
      exact descriptorOk_sample.2.1
  patterns := by decide

theorem inv_filled : filledS.Inv :=
  ⟨groupsOk_filled _, registryOk_filled, by simp [filledS, stateOf, filled]⟩

/-! ### Witnesses: for each statement with hypotheses, a state and operands that meet them, clause by
clause -/

def addD : BasicDescriptor := descriptorOf addP
def nopD : BasicDescriptor := descriptorOf nopP
def opxD : BasicDescriptor := descriptorOf opxP
def opyD : BasicDescriptor := descriptorOf opyP
def allF : Proto := proto "all" [] .r false "ffffffffffffffffffffffffffffffff"

/-- A state with one command on the stream. -/
def withCmd (c : Command) (s : State) : State := { s with cmds := [c] }

theorem compile_ok (p : Proto) (h : Template.wellFormed p.template = true) :
    compile p = .ok (descriptorOf p) :=
  (compile_eq_ok_iff p _).2 ⟨h, rfl⟩

theorem witness_DecodeRefusesExactlyTheMistypedPayloads :
    (⟨15#4, .word 0⟩ : Command).wellFormed = false ∧
    (withCmd ⟨15#4, .word 0⟩ filledS).cmds = [⟨15#4, .word 0⟩] := ⟨by decide, rfl⟩

theorem witness_StepRunsTheNextCommandOfTheStream :
    (withCmd ⟨3#4, .word 7⟩ filledS).cmds = ⟨3#4, .word 7⟩ :: [] ∧
    decode ⟨3#4, .word 7⟩ = .ok (.decDecode 7) := ⟨rfl, rfl⟩

theorem witness_StepWithoutACommandIsQuiescent : filledS.cmds = [] := rfl

theorem witness_APlacedTableWordRunsNext :
    decodeTableWord 8 0b1111 = some .logRead ∧ decodeTableWord 8 0 = some (.reserved .none) :=
  ⟨rfl, rfl⟩

theorem witness_EveryStepKeepsTheInvariant :
    (withCmd ⟨8#4, .none⟩ filledS).Inv ∧
    ∃ t, step (withCmd ⟨8#4, .none⟩ filledS) = .next t := ⟨inv_filled, _, rfl⟩

theorem forall_of_all {l : Text} {P : Char → Prop} [DecidablePred P]
    (h : l.all (fun c => decide (P c)) = true) : ∀ c ∈ l, P c :=
  fun c hc => of_decide_eq_true (List.all_eq_true.1 h c hc)

theorem witness_MaskAndMatchAreReadOffTheTemplate :
    addP.template.length = 32 ∧
      ∀ x ∈ addP.template, x = '0' ∨ x = '1' ∨ x = 'f' ∨ x = 's' ∨ x = 't' :=
  ⟨by decide, forall_of_all (by decide)⟩

theorem witness_CompileChecksLengthThenCharactersAndNothingElse :
    bad1P.template.length ≠ 32 ∧
    (bad2P.template = txt "010101" ++ 'x' :: txt "fffffffffffffffffffffffff" ∧
      bad2P.template.length = 32 ∧
      (∀ x ∈ txt "010101", x = '0' ∨ x = '1' ∨ x = 'f' ∨ x = 's' ∨ x = 't') ∧
      ¬ ('x' = '0' ∨ 'x' = '1' ∨ 'x' = 'f' ∨ 'x' = 's' ∨ 'x' = 't')) ∧
    (addP.template.length = 32 ∧
      ∀ x ∈ addP.template, x = '0' ∨ x = '1' ∨ x = 'f' ∨ x = 's' ∨ x = 't') :=
  ⟨by decide, ⟨by decide, by decide, forall_of_all (by decide), by decide⟩,
    witness_MaskAndMatchAreReadOffTheTemplate⟩

theorem witness_TplCompileAnswersAndWritesNothing :
    Template.wellFormed addP.template = true ∧ Template.wellFormed bad1P.template = false := by
  decide

theorem witness_MatchLiesWithinMask :
    compile addP = .ok addD ∧ matchesWord addD 0x012A4020 :=
  ⟨compile_ok _ (by decide), by unfold matchesWord; decide⟩

theorem witness_FullyFixedMatchesOneWordAndFullyVariableMatchesAll :
    (compile nopP = .ok nopD ∧ ∀ c ∈ nopP.template, c = '0' ∨ c = '1') ∧
    (compile allF = .ok (descriptorOf allF) ∧ ∀ c ∈ allF.template, c ≠ '0' ∧ c ≠ '1') :=
  ⟨⟨compile_ok _ (by decide), forall_of_all (by decide)⟩, compile_ok _ (by decide),
    forall_of_all (by decide)⟩

theorem witness_FieldsAndFixedBitsCoverTheWord :
    Template.wellFormed opyP.template = true ∧ 's' ∉ opyP.template := by decide

theorem witness_FieldValueIsTheNumberItsBitsSpell :
    (0 ≤ 31 ∧ positions allF.template 'f' = (List.range (31 - 0 + 1)).map (fun j => 31 - j)) ∧
    (11 ≤ 15 ∧ positions addP.template 'f' = (List.range (15 - 11 + 1)).map (fun j => 15 - j)) ∧
    positions nopP.template 't' = [] := by decide

theorem witness_DecodeAnswersFromTheFirstGroupThatHoldsTheWord :
    (filledS.blk.groups = [⟨0xFFFFFFFF, [(0, nopD)]⟩, ⟨0xFC0007FF, [(0x20, addD)]⟩] ++
        ⟨0xFC00003F, [(0x54000003, opyD)]⟩ :: [⟨0xFC000000, [(0x54000000, opxD)]⟩] ∧
      (∀ h ∈ ([⟨0xFFFFFFFF, [(0, nopD)]⟩, ⟨0xFC0007FF, [(0x20, addD)]⟩] : List Group),
        mapGet h.table ((0x57FFFFC3 : Word) &&& h.mask) = none) ∧
      mapGet [((0x54000003 : Word), opyD)] ((0x57FFFFC3 : Word) &&& 0xFC00003F) = some opyD) ∧
    (∀ h ∈ filledS.blk.groups, mapGet h.table ((0xFFFFFFFF : Word) &&& h.mask) = none) := by
  decide

theorem witness_OperandsAreTheThreeFieldsOfTheDecodedWord :
    (filledS.blk.groups = [] ++ ⟨0xFFFFFFFF, [(0, nopD)]⟩ :: filled.groups.tail ∧
      mapGet [((0 : Word), nopD)] ((0 : Word) &&& 0xFFFFFFFF) = some nopD) ∧ filledS.Inv ∧
    (∀ h ∈ filledS.blk.groups, mapGet h.table ((0x012A4021 : Word) &&& h.mask) = none) :=
  ⟨by decide, inv_filled, by decide⟩

theorem compile_bad : ∃ e, compile bad1P = .error e := ⟨_, compile_of_length (by decide)⟩

theorem witness_DecAddEntersANewPatternAndKeepsTheFirst :
    sealedS.blk.phase = .published ∧
    (filledS.blk.phase = .build ∧ ∃ e, compile bad1P = .error e) ∧
    (compile opzP = .ok (descriptorOf opzP) ∧
      entryAt filledS.blk.groups (descriptorOf opzP).mask (descriptorOf opzP).matchBits =
        some opxD) ∧
    (compile lwP = .ok (descriptorOf lwP) ∧
      entryAt filledS.blk.groups (descriptorOf lwP).mask (descriptorOf lwP).matchBits = none ∧
      (descriptorOf lwP).mask ∈ filledS.blk.groups.map Group.mask) ∧
    (compile allF = .ok (descriptorOf allF) ∧
      entryAt filledS.blk.groups (descriptorOf allF).mask (descriptorOf allF).matchBits = none ∧
      (descriptorOf allF).mask ∉ filledS.blk.groups.map Group.mask) ∧ filledS.Inv :=
  ⟨rfl, ⟨rfl, compile_bad⟩, ⟨compile_ok _ (by decide), by decide⟩,
    ⟨compile_ok _ (by decide), by decide⟩, ⟨compile_ok _ (by decide), by decide⟩, inv_filled⟩

theorem witness_PriorityIsAStrictTotalOrderOnMasks :
    (0xFC00003F : Word) ≠ 0xFFF00000 ∧
    (before .ascSigned 0xFFF00000 0x00000FFF = true ∧
      before .ascSigned 0x00000FFF 0xFC000000 = true) ∧
    (0xFC00003F : Word).getLsbD 31 = (0xFFF00000 : Word).getLsbD 31 := by decide

theorem isEntry_opx : isEntry filledS.blk.groups opxD :=
  ⟨⟨0xFC000000, [(0x54000000, opxD)]⟩, by decide, 0x54000000, by decide⟩

theorem isEntry_opy : isEntry filledS.blk.groups opyD :=
  ⟨⟨0xFC00003F, [(0x54000003, opyD)]⟩, by decide, 0x54000003, by decide⟩

theorem entries_filled {d : BasicDescriptor} (h : isEntry filledS.blk.groups d) :
    d = nopD ∨ d = addD ∨ d = opyD ∨ d = opxD := by
  obtain ⟨g, hg, k, hk⟩ := h
  simp only [filledS, stateOf, filled, List.mem_cons, List.not_mem_nil, or_false] at hg
  rcases hg with rfl | rfl | rfl | rfl <;>
    simp only [List.mem_singleton, Prod.mk.injEq] at hk <;> simp [hk.2, nopD, addD, opyD, opxD]

theorem witness_DecodeGivesTheMatchingEntryOfHighestPriority :
    filledS.Inv ∧
    (isEntry filledS.blk.groups opyD ∧ matchesWord opyD 0x54000003 ∧
      ∀ d', isEntry filledS.blk.groups d' → matchesWord d' 0x54000003 → d' ≠ opyD →
        before Config.params.tieOrder opyD.mask d'.mask = true) ∧
    (∀ d, isEntry filledS.blk.groups d → ¬ matchesWord d 0xFFFFFFFF) := by
  refine ⟨inv_filled, ⟨isEntry_opy, by unfold matchesWord; decide, fun d' h hm hne => ?_⟩,
    fun d h => ?_⟩
  · unfold matchesWord at hm
    rcases entries_filled h with rfl | rfl | rfl | rfl
    · exact absurd hm (by decide)
    · exact absurd hm (by decide)
    · exact absurd rfl hne
    · cases Config.params.tieOrder <;> decide
  · unfold matchesWord
    rcases entries_filled h with rfl | rfl | rfl | rfl <;> decide

theorem witness_TheMoreSpecificPatternWins :
    filledS.Inv ∧ isEntry filledS.blk.groups opyD ∧ isEntry filledS.blk.groups opxD ∧
    matchesWord opyD 0x54000003 ∧ matchesWord opxD 0x54000003 ∧
    popcount opxD.mask < popcount opyD.mask ∧
    (∀ d, isEntry filledS.blk.groups d → matchesWord d 0x54000003 → d = opyD ∨ d = opxD) := by
  refine ⟨inv_filled, isEntry_opy, isEntry_opx, by unfold matchesWord; decide,
    by unfold matchesWord; decide, by decide, fun d h hm => ?_⟩
  unfold matchesWord at hm
  rcases entries_filled h with rfl | rfl | rfl | rfl
  · exact absurd hm (by decide)
  · exact absurd hm (by decide)
  · exact .inl rfl
  · exact .inr rfl

/-- `add` and `sll` sit in different groups of equal popcount and no word matches both. -/
theorem witness_TieOrderIsUnobservableWhenTieFree :
    tieFree (decoderOf .ascUnsigned [addD, descriptorOf sllP]) ∧
    popcount addD.mask = popcount (descriptorOf sllP).mask := by
  unfold tieFree compatible
  decide

theorem witness_DecoderIsIndependentOfInsertionOrder :
    [opxD, opyD].Perm [opyD, opxD] ∧
    ([opxD, opyD].map fun d => (d.mask, d.matchBits)).Nodup :=
  ⟨List.Perm.swap _ _ _, by decide⟩

theorem witness_WordsOfARegisteredDescriptorAlwaysDecode : filledS.Inv ∧ addD ∈ filledS.blk.basic :=
  ⟨inv_filled, by decide⟩

theorem witness_RegBasicRegistersAndKeepsTheFirstPattern :
    sealedS.blk.phase = .published ∧
    (filledS.blk.phase = .build ∧ ∃ e, compile bad1P = .error e) ∧
    (compile addP = .ok addD ∧
      entryAt filledS.blk.groups addD.mask addD.matchBits = some addD) ∧
    (compile lwP = .ok (descriptorOf lwP) ∧
      entryAt filledS.blk.groups (descriptorOf lwP).mask (descriptorOf lwP).matchBits = none) :=
  ⟨rfl, ⟨rfl, compile_bad⟩, ⟨compile_ok _ (by decide), by decide⟩, compile_ok _ (by decide),
    by decide⟩

theorem witness_RegExtAppendsToTheIndices :
    sealedS.blk.phase = .published ∧ filledS.blk.phase = .build := ⟨rfl, rfl⟩

theorem witness_LoadGroupRegistersGoodMatchesAndLogsBadOnes :
    sealedS.blk.phase = .published ∧
    (filledS.blk.phase = .build ∧ GroupRecord.zero.mnemonic = []) ∧ liG.mnemonic ≠ [] :=
  ⟨rfl, ⟨rfl, rfl⟩, by decide⟩

theorem witness_PublishEndsPopulation :
    (Instr.regLoadgrp liG).refusedWhenPublished = true ∧
    ∃ u, exec .logRead sealedS = .next u := ⟨rfl, _, rfl⟩

theorem witness_TheTwoRefusalsChangeNothing :
    sealedS.blk.phase = .published ∧ (Instr.decAdd bad1P).refusedWhenPublished = true := ⟨rfl, rfl⟩

/-- The overloads of `nop`, the first with an empty signature. -/
theorem witness_LooseResolveKeepsTheArityAndAsksTheLooserPredicate :
    mapGet filledS.blk.mnem (txt "nop") = some [.basic nopD,
      .extended { ExtendedDescriptor.zero with mnemonic := txt "nop" }] ∧
    (∀ accepts, firstAccepting accepts [] [.basic nopD,
      .extended { ExtendedDescriptor.zero with mnemonic := txt "nop" }] (.basic nopD)) ∧
    (∀ accepts, noneAccepting accepts [REG] [.basic nopD,
      .extended { ExtendedDescriptor.zero with mnemonic := txt "nop" }]) ∧
    mapGet filledS.blk.mnem (txt "NOP") = none := by
  refine ⟨by decide, fun _ => ⟨[], _, rfl, .nil, by simp⟩, fun accepts x hx => ?_, by decide⟩
  unfold signatureAccepts
  rw [← sigAccepts_iff]
  simp only [List.mem_cons, List.not_mem_nil, or_false] at hx
  rcases hx with rfl | rfl <;> simp [signatureOf, nopD, descriptorOf, nopP, proto,
    ExtendedDescriptor.zero, sigAccepts]

theorem filter_nop : (filledS.blk.all.filter fun x => mnemonicOf x == txt "nop") = [.basic nopD,
    .extended { ExtendedDescriptor.zero with mnemonic := txt "nop" }] := by decide

theorem witness_ResolveAnswersTheFirstAcceptingOverload :
    mapGet filledS.blk.mnem (txt "nop") = some [.basic nopD,
      .extended { ExtendedDescriptor.zero with mnemonic := txt "nop" }] ∧
    mapGet filledS.blk.mnem (txt "NOP") = none ∧ filledS.Inv ∧
    firstAccepting Config.params.accepts []
      (filledS.blk.all.filter fun x => mnemonicOf x == txt "nop") (.basic nopD) ∧
    noneAccepting Config.params.accepts [REG]
      (filledS.blk.all.filter fun x => mnemonicOf x == txt "nop") := by
  rw [filter_nop]
  exact ⟨by decide, by decide, inv_filled,
    witness_LooseResolveKeepsTheArityAndAsksTheLooserPredicate.2.1 _,
    witness_LooseResolveKeepsTheArityAndAsksTheLooserPredicate.2.2.1 _⟩

theorem witness_LooseModeFindsAnOverloadNoLaterThanStrict :
    filledS.Inv ∧ exec (.regResolve (txt "nop") []) filledS =
      .next { filledS with rsp := some ⟨.ok, .descriptor (.basic nopD)⟩ } :=
  ⟨inv_filled, rfl⟩

theorem witness_EnumerationsGiveTheStoredLists : filledS.Inv := inv_filled

theorem witness_LookupsReadTheBlockAndNothingElse :
    (Instr.decOperands 0).isLookup = true ∧ filledS.blk = filled := ⟨rfl, rfl⟩

/-- An answer of each status other than `OK`. -/
theorem witness_ErrorsChangeTheLogAndOnlyAKeptCollisionTheIndices :
    (∃ t, exec (.decDecode 0xFFFFFFFF) filledS = .next t ∧ t.rsp = some ⟨.none, .none⟩) ∧
    (∃ t e, exec (.tplCompile bad1P) filledS = .next t ∧ t.rsp = some ⟨.err, .diag e⟩) ∧
    (∃ t e, exec (.regBasic bad1P) filledS = .next t ∧ t.rsp = some ⟨.err, .diag e⟩ ∧
      ∀ p, Instr.regBasic bad1P ≠ .tplCompile p) :=
  ⟨⟨_, rfl, by decide⟩, ⟨_, _, rfl, rfl⟩, _, _, rfl, rfl, fun _ h => by cases h⟩

theorem witness_OnlyThreeCommandsAppendToTheLog :
    ∃ t, exec (.decAdd bad1P) filledS = .next t ∧ t.blk.log ≠ filledS.blk.log :=
  ⟨_, rfl, by decide⟩

theorem witness_EachStoreIsWrittenByItsOwnCommandsOnly :
    (∃ t, exec (.regExt ExtendedDescriptor.zero) filledS = .next t ∧
      t.blk.all ≠ filledS.blk.all ∧ t.blk.ext ≠ filledS.blk.ext) ∧
    (∃ t, exec (.regBasic addP) State.reset = .next t ∧
      t.blk.basic ≠ State.reset.blk.basic ∧ t.blk.groups ≠ State.reset.blk.groups) ∧
    (∃ t, exec (.regBasic bad1P) filledS = .next t ∧ t.blk.log ≠ filledS.blk.log) ∧
    (∃ t, exec .regPublish filledS = .next t ∧ t.blk.phase ≠ filledS.blk.phase) :=
  ⟨⟨_, rfl, by decide, by decide⟩, ⟨_, rfl, by decide, by decide⟩, ⟨_, rfl, by decide⟩, _, rfl,
    by decide⟩

theorem witness_NothingStoredIsEverLost :
    ∃ t, core.run 1 (withCmd ⟨8#4, .none⟩ filledS) = .next t := ⟨_, rfl⟩

theorem witness_PublishedAnswersNeverChange :
    sealedS.blk.phase = .published ∧
    ∃ t, core.run 1 (withCmd ⟨5#4, .proto lwP⟩ sealedS) = .next t ∧
      (withCmd ⟨5#4, .proto lwP⟩ sealedS).blk.phase = .published := ⟨rfl, _, rfl, rfl⟩

/-- A catalogue whose group stands before its proto, as decision D18 lets one be. -/
theorem test_boot_order :
    let c : Catalog := ⟨[.group liG, .basic addP]⟩
    bootCommands c = [.regLoadgrp liG, .regBasic addP, .regPublish] ∧
    bootCommands c.basicsFirst = [.regBasic addP, .regLoadgrp liG, .regPublish] := ⟨rfl, rfl⟩

end Sys2Proof.Tests
end

section
/-! What a command can do, said once per kind of command: the four population commands answer
`FROZEN` after publish, what each of them does in phase `BUILD`, and that every other command except
REG.PUBLISH responds and writes nothing. -/

namespace Sys2Proof.Machine

/-- The block after a command is the one its response was given with. -/
theorem exec_blk {i : Instr} {s t : State} {b : Block} {st : Status} {p : RspPayload}
    (he : exec i s = respondWith s b st p) (h : exec i s = .next t) : t.blk = b := by
  cases he.symm.trans h
  rfl

/-- After publish the population commands answer `FROZEN` and write nothing (rule R162). -/
theorem exec_published {i : Instr} {s : State} (hi : i.refusedWhenPublished = true)
    (hs : s.blk.phase = .published) : exec i s = respond s .frozen .none := by
  have hf : s.blk.frozen = true := (frozen_iff _).2 hs
  cases i with
  | decAdd => exact if_pos hf
  | regBasic => exact if_pos hf
  | regExt => exact if_pos hf
  | regLoadgrp => exact if_pos hf
  | _ => cases hi

/-- A resolution responds and writes nothing (rule R45). -/
theorem resolveBy_eq_respond (accepts : OperandType → OperandType → Bool) (m : Text)
    (given : List OperandType) (s : State) :
    ∃ st p, resolveBy accepts m given s = respond s st p := by
  unfold resolveBy
  cases resolveWith accepts m given s.blk with
  | none => exact ⟨_, _, rfl⟩
  | some d => exact ⟨_, _, rfl⟩

/-- A command that is neither a population command nor REG.PUBLISH responds and writes nothing
(rules R45, R158). -/
theorem exec_eq_respond {i : Instr} (s : State) (hi : i.refusedWhenPublished = false)
    (hp : i ≠ .regPublish) : ∃ st p, exec i s = respond s st p := by
  cases i with
  | tplCompile p =>
    simp only [exec, execTplCompile]
    cases compile p with
    | ok d => exact ⟨_, _, rfl⟩
    | error e => exact ⟨_, _, rfl⟩
  | decDecode w =>
    simp only [exec, execDecDecode]
    cases decodeWord s.blk.groups w with
    | none => exact ⟨_, _, rfl⟩
    | some d => exact ⟨_, _, rfl⟩
  | decOperands w =>
    simp only [exec, execDecOperands]
    cases decodeWord s.blk.groups w with
    | none => exact ⟨_, _, rfl⟩
    | some d => exact ⟨_, _, rfl⟩
  | regResolve m given => exact resolveBy_eq_respond _ m given s
  | regResolvel m given => exact resolveBy_eq_respond _ m given s
  | reserved => exact ⟨_, _, rfl⟩
  | regPrefix => exact ⟨_, _, rfl⟩
  | enumAll => exact ⟨_, _, rfl⟩
  | enumBasic => exact ⟨_, _, rfl⟩
  | enumExt => exact ⟨_, _, rfl⟩
  | logRead => exact ⟨_, _, rfl⟩
  | decAdd => cases hi
  | regBasic => cases hi
  | regExt => cases hi
  | regLoadgrp => cases hi
  | regPublish => exact absurd rfl hp

/-- Everything DEC.ADD can do in phase `BUILD` (rules R91, R92). -/
theorem exec_decAdd_build (p : Proto) {s : State} (hs : s.blk.phase = .build) :
    (∃ e, compile p = .error e ∧ exec (.decAdd p) s = failWith s e) ∨
    (∃ d, compile p = .ok d ∧ entryAt s.blk.groups d.mask d.matchBits = none ∧
      exec (.decAdd p) s =
        respondWith s
          { s.blk with groups := enterPattern Config.params.tieOrder d s.blk.groups } .ok .none) ∨
    (∃ d first, compile p = .ok d ∧ entryAt s.blk.groups d.mask d.matchBits = some first ∧
      exec (.decAdd p) s =
        respondWith s (s.blk.addDiag (dupDiag d)) .err (.diag (dupDiag d))) := by
  have hf : ¬ s.blk.frozen = true := by simp [hs]
  simp only [exec, execDecAdd, decAddWith, if_neg hf]
  cases compile p with
  | error e => exact .inl ⟨e, rfl, rfl⟩
  | ok d =>
    rcases decAdd_cases Config.params.tieOrder d s.blk with ⟨hn, hd⟩ | ⟨first, hn, hd⟩
    · exact .inr (.inl ⟨d, rfl, hn, by simp only [hd]⟩)
    · exact .inr (.inr ⟨d, first, rfl, hn, by simp only [hd]⟩)

/-- Everything REG.BASIC can do in phase `BUILD` (rules R110, R111). -/
theorem exec_regBasic_build (p : Proto) {s : State} (hs : s.blk.phase = .build) :
    (∃ e, compile p = .error e ∧ exec (.regBasic p) s = failWith s e) ∨
    (∃ d, compile p = .ok d ∧ entryAt s.blk.groups d.mask d.matchBits = none ∧
      exec (.regBasic p) s =
        respondWith s
          (({ s.blk with
              groups := enterPattern Config.params.tieOrder d s.blk.groups } : Block).addBasic d)
          .ok .none) ∨
    (∃ d first, compile p = .ok d ∧ entryAt s.blk.groups d.mask d.matchBits = some first ∧
      exec (.regBasic p) s =
        respondWith s
          (if Config.params.collisionRollback then s.blk.addDiag (dupDiag d)
           else (s.blk.addDiag (dupDiag d)).addBasic d) .err (.diag (dupDiag d))) := by
  have hf : ¬ s.blk.frozen = true := by simp [hs]
  simp only [exec, execRegBasic, regBasicWith, if_neg hf]
  cases compile p with
  | error e => exact .inl ⟨e, rfl, rfl⟩
  | ok d =>
    rcases regBasic_cases Config.params.tieOrder Config.params.collisionRollback d s.blk with
      ⟨hn, hd⟩ | ⟨first, hn, hd⟩
    · exact .inr (.inl ⟨d, rfl, hn, by simp only [hd]⟩)
    · exact .inr (.inr ⟨d, first, rfl, hn, by simp only [hd]⟩)

/-- REG.EXT in phase `BUILD` (rule R113). -/
theorem exec_regExt_build (e : ExtendedDescriptor) {s : State} (hs : s.blk.phase = .build) :
    exec (.regExt e) s = respondWith s (regExt e s.blk) .ok .none :=
  if_neg (by simp [hs])

/-- REG.PUBLISH writes the phase, in either phase (rule R120). -/
theorem exec_regPublish (s : State) :
    exec .regPublish s = respondWith s { s.blk with phase := .published } .ok .none :=
  rfl

/-- Everything REG.LOADGRP can do in phase `BUILD` (rule R118). -/
theorem exec_regLoadgrp_build (g : GroupRecord) {s : State} (hs : s.blk.phase = .build) :
    (g.mnemonic = [] ∧ exec (.regLoadgrp g) s = failWith s ⟨.eBadGroup, [], 0⟩) ∨
    (g.mnemonic ≠ [] ∧ ∃ r, r = loadMatches Config.params g 0 ⟨0, [], s.blk⟩ g.matchRecords ∧
      exec (.regLoadgrp g) s = respondWith s r.blk .ok (.loaded r.count r.skipped)) := by
  have hf : ¬ s.blk.frozen = true := by simp [hs]
  simp only [exec, execRegLoadgrp, regLoadgrpWith, if_neg hf]
  by_cases hg : g.mnemonic = []
  · exact .inl ⟨hg, if_pos (List.isEmpty_iff.2 hg)⟩
  · exact .inr ⟨hg, _, rfl, if_neg (mt List.isEmpty_iff.1 hg)⟩

end Sys2Proof.Machine
end

section
/-! The diagnostic log (rule R34): the three commands that append to it keep what it held, and every
other command leaves it as it is. -/

namespace Sys2Proof.Machine

/-- DEC.ADD keeps the log's entries (rule R92). -/
theorem log_prefix_decAdd {p : Proto} {s t : State} (hs : s.blk.phase = .build)
    (h : exec (.decAdd p) s = .next t) : s.blk.log <+: t.blk.log := by
  rcases exec_decAdd_build p hs with ⟨e, -, he⟩ | ⟨d, -, -, he⟩ | ⟨d, first, -, -, he⟩
  · simp [exec_blk he h]
  · simp [exec_blk he h]
  · simp [exec_blk he h]

/-- REG.BASIC keeps the log's entries, whether or not a collision is rolled back (rule R110). -/
theorem log_prefix_regBasic {p : Proto} {s t : State} (hs : s.blk.phase = .build)
    (h : exec (.regBasic p) s = .next t) : s.blk.log <+: t.blk.log := by
  rcases exec_regBasic_build p hs with ⟨e, -, he⟩ | ⟨d, -, -, he⟩ | ⟨d, first, -, -, he⟩
  · simp [exec_blk he h]
  · simp [exec_blk he h]
  · rw [exec_blk he h]
    cases Config.params.collisionRollback with
    | true => simp
    | false => simp

/-- REG.LOADGRP keeps the log's entries (rule R118). -/
theorem log_prefix_regLoadgrp {g : GroupRecord} {s t : State} (hs : s.blk.phase = .build)
    (h : exec (.regLoadgrp g) s = .next t) : s.blk.log <+: t.blk.log := by
  rcases exec_regLoadgrp_build g hs with ⟨-, he⟩ | ⟨-, r, rfl, he⟩
  · simp [exec_blk he h]
  · rw [exec_blk he h]
    exact loadMatches_induction Config.params g (Q := fun b => s.blk.log <+: b.log)
      (fun _ _ hb => hb) (fun _ _ hb => hb.trans (List.prefix_append _ _)) _ _ _ List.prefix_rfl

/-- What a command does to the log (rule R34): nothing, or, in phase `BUILD`, one of the three
population commands keeps every entry. -/
theorem exec_log_cases {i : Instr} {s t : State} (h : exec i s = .next t) :
    t.blk.log = s.blk.log ∨
    (s.blk.phase = .build ∧ s.blk.log <+: t.blk.log ∧
      ((∃ p, i = .decAdd p) ∨ (∃ p, i = .regBasic p) ∨ ∃ g, i = .regLoadgrp g)) := by
  cases hi : i.refusedWhenPublished with
  | false =>
    by_cases hp : i = .regPublish
    · subst hp
      exact .inl (by rw [exec_blk (exec_regPublish s) h])
    · obtain ⟨st, p, he⟩ := exec_eq_respond s hi hp
      exact .inl (by rw [exec_blk he h])
  | true =>
    cases hs : s.blk.phase with
    | published => exact .inl (by rw [exec_blk (exec_published hi hs) h])
    | build =>
      cases i with
      | decAdd p => exact .inr ⟨rfl, log_prefix_decAdd hs h, .inl ⟨p, rfl⟩⟩
      | regBasic p => exact .inr ⟨rfl, log_prefix_regBasic hs h, .inr (.inl ⟨p, rfl⟩)⟩
      | regLoadgrp g => exact .inr ⟨rfl, log_prefix_regLoadgrp hs h, .inr (.inr ⟨g, rfl⟩)⟩
      | regExt e => exact .inl (by rw [exec_blk (exec_regExt_build e hs) h, regExt_log])
      | _ => cases hi

/-- Settles O39, by the two cases of `exec_log_cases`. -/
theorem onlyThreeCommandsAppendToTheLog : Obligations.OnlyThreeCommandsAppendToTheLog := by
  intro i s t h
  rcases exec_log_cases h with hl | ⟨hs, hpre, hi⟩
  · exact ⟨hl ▸ List.prefix_rfl, fun hne => absurd hl hne⟩
  · exact ⟨hpre, fun _ => ⟨hs, hi⟩⟩

end Sys2Proof.Machine
end

section
/-! Templates (rules R58, R60): mask and match read off the characters, and the positions of the three
placeholder classes, which with the fixed bits cover the word. -/

namespace Sys2Proof.Machine

/-- Settles O10: mask and match of the descriptor compiled are `maskOf` and `matchOf` of the template. -/
theorem maskAndMatchAreReadOffTheTemplate : Obligations.MaskAndMatchAreReadOffTheTemplate := by
  intro p hlen hchars
  have hwf : Template.wellFormed p.template = true :=
    (wellFormed_iff _).2
      ⟨hlen, List.all_eq_true.2 fun x hx => (inAlphabet_iff x).2 (hchars x hx)⟩
  exact ⟨descriptorOf p, (compile_eq_ok_iff _ _).2 ⟨hwf, rfl⟩, rfl,
    fun i hi => ⟨getLsbD_maskOf hlen hi, getLsbD_matchOf hlen hi⟩⟩

/-- The positions of a class in a template of 32 characters, index by index (rule R60). -/
theorem positions_eq {t : Text} (h : t.length = 32) (c : Char) :
    positions t c = ((List.range 32).filter fun i => t[i]? == some c).map fun i => 31 - i := by
  rw [positions, positionsFrom_eq, h]
  simp only [Nat.zero_add, bitOf]

/-- A bit belongs to a class exactly when the one character that describes it is the class's letter. -/
theorem mem_positions_iff {t : Text} (h : t.length = 32) {c : Char} {b : Nat} :
    b ∈ positions t c ↔ b < 32 ∧ t[31 - b]? = some c := by
  simp only [positions_eq h, List.mem_map, List.mem_filter, List.mem_range, beq_iff_eq]
  constructor
  · rintro ⟨i, ⟨hi, hc⟩, rfl⟩
    exact ⟨by omega, by rwa [show 31 - (31 - i) = i by omega]⟩
  · rintro ⟨hb, hc⟩
    exact ⟨31 - b, ⟨by omega, hc⟩, by omega⟩

/-- The positions of a class descend, since the indices of its characters ascend (rule R60). -/
theorem positions_pairwise_gt {t : Text} (h : t.length = 32) (c : Char) :
    (positions t c).Pairwise fun a b => b < a := by
  have hdesc : (List.range 32).Pairwise fun i j => 31 - j < 31 - i := by decide
  rw [positions_eq h, List.pairwise_map]
  exact hdesc.filter _

/-- Different classes share no position: a bit is described by one character (rule R60). -/
theorem not_mem_positions_of_ne {t : Text} (h : t.length = 32) {c c' : Char} {b : Nat}
    (hne : c ≠ c') (hb : b ∈ positions t c) : b ∉ positions t c' := by
  intro hb'
  obtain ⟨-, hc⟩ := (mem_positions_iff h).1 hb
  obtain ⟨-, hc'⟩ := (mem_positions_iff h).1 hb'
  exact hne (Option.some.inj (hc.symm.trans hc'))

/-- A class whose letter does not occur has width 0 (rule R60). -/
theorem fieldWidth_of_not_mem {t : Text} {c : Char} (h : c ∉ t) : fieldWidth t c = 0 := by
  rw [fieldWidth_eq_count, List.count_eq_zero_of_not_mem h]

/-- Every character of the alphabet is a literal or one of the three letters, and only one of these. -/
theorem countP_literal_add_count {t : Text} (h : t.all Template.inAlphabet = true) :
    (t.countP fun c => c == '0' || c == '1') + t.count 'f' + t.count 's' + t.count 't' =
      t.length := by
  induction t with
  | nil => rfl
  | cons x xs ih =>
    obtain ⟨hx, hxs⟩ := Bool.and_eq_true_iff.1 (List.all_cons.symm.trans h)
    have hcount := ih hxs
    rw [List.countP_cons, List.count_cons, List.count_cons, List.count_cons, List.length_cons]
    rcases (inAlphabet_iff x).1 hx with rfl | rfl | rfl | rfl | rfl <;> simp <;> omega

/-- The fixed bits and the three classes cover all 32 positions (rule R60). -/
theorem popcount_maskOf_add_fieldWidths {t : Text} (h : Template.wellFormed t = true) :
    popcount (maskOf t) + fieldWidth t 'f' + fieldWidth t 's' + fieldWidth t 't' = 32 := by
  obtain ⟨hlen, hchars⟩ := (wellFormed_iff t).1 h
  rw [popcount_maskOf hlen, fieldWidth_eq_count, fieldWidth_eq_count, fieldWidth_eq_count,
    countP_literal_add_count hchars, hlen]

/-- Settles O15: the clauses on positions from `positions_eq`, the cover by counting characters. -/
theorem fieldsAndFixedBitsCoverTheWord : Obligations.FieldsAndFixedBitsCoverTheWord := by
  intro t ht
  have hlen : t.length = 32 := ((wellFormed_iff t).1 ht).1
  exact ⟨positions_eq hlen, positions_pairwise_gt hlen, fun _ => rfl,
    fun _ => fieldWidth_of_not_mem, fun _ _ _ => not_mem_positions_of_ne hlen,
    popcount_maskOf_add_fieldWidths ht⟩

end Sys2Proof.Machine
end

section
/-! The priority order (rule R90): each tie order is a strict total order on words, so `before` is one;
and masks of one sign order alike signed and unsigned. -/

namespace Sys2Proof.Machine

/-- In a strict total order exactly one of two distinct members comes first. -/
theorem StrictTotal.eq_not {K : Type} {lt : K → K → Bool} (h : StrictTotal lt) {a b : K}
    (hne : a ≠ b) : lt a b = !lt b a := by
  rcases h.total a b hne with hab | hba
  · rw [hab, h.asymm hab, Bool.not_false]
  · rw [hba, h.asymm hba, Bool.not_true]

section
variable (a b : Word)

@[simp] theorem tieLess_ascUnsigned : tieLess .ascUnsigned a b = true ↔ a.toNat < b.toNat :=
  decide_eq_true_iff

@[simp] theorem tieLess_descUnsigned : tieLess .descUnsigned a b = true ↔ b.toNat < a.toNat :=
  decide_eq_true_iff

@[simp] theorem tieLess_ascSigned : tieLess .ascSigned a b = true ↔ a.toInt < b.toInt :=
  decide_eq_true_iff

@[simp] theorem tieLess_descSigned : tieLess .descSigned a b = true ↔ b.toInt < a.toInt :=
  decide_eq_true_iff

end

/-- Rule R90: more fixed bits first, then the tie order. -/
theorem before_iff (tie : TieOrder) (a b : Word) :
    before tie a b = true ↔
      popcount b < popcount a ∨ (popcount a = popcount b ∧ tieLess tie a b = true) := by
  simp [before]

/-- A test that compares the words' values in a linear order is a strict total order, as no two words
share a value. -/
theorem strictTotal_of_injective {α : Type} [LinearOrder α] {f : Word → α}
    (hf : Function.Injective f) {lt : Word → Word → Bool}
    (hlt : ∀ a b, lt a b = true ↔ f a < f b) : StrictTotal lt where
  irrefl a := Bool.eq_false_iff.2 fun h => lt_irrefl _ ((hlt a a).1 h)
  trans a b c hab hbc := (hlt a c).2 (((hlt a b).1 hab).trans ((hlt b c).1 hbc))
  total a b hne := (lt_or_gt_of_ne (hf.ne hne)).imp (hlt a b).2 (hlt b a).2

/-- A strict total order read backwards is one. -/
theorem StrictTotal.flip {K : Type} {lt lt' : K → K → Bool} (h : StrictTotal lt)
    (hlt : ∀ a b, lt' a b = lt b a) : StrictTotal lt' where
  irrefl a := by rw [hlt, h.irrefl]
  trans a b c hab hbc := by
    rw [hlt] at hab hbc ⊢
    exact h.trans c b a hbc hab
  total a b hne := by
    rw [hlt, hlt]
    exact h.total b a hne.symm

/-- Each tie order is a strict total order on words. -/
theorem tieLess_strictTotal (tie : TieOrder) : StrictTotal (tieLess tie) := by
  have hu : StrictTotal (tieLess .ascUnsigned) :=
    strictTotal_of_injective (fun _ _ => BitVec.eq_of_toNat_eq) tieLess_ascUnsigned
  have hs : StrictTotal (tieLess .ascSigned) :=
    strictTotal_of_injective (fun _ _ => BitVec.eq_of_toInt_eq) tieLess_ascSigned
  cases tie with
  | ascUnsigned => exact hu
  | descUnsigned => exact hu.flip fun _ _ => rfl
  | ascSigned => exact hs
  | descSigned => exact hs.flip fun _ _ => rfl

/-- The priority order is a strict total order on masks (rule R90). -/
theorem before_strictTotal (tie : TieOrder) : StrictTotal (before tie) where
  irrefl a := by simp [before, (tieLess_strictTotal tie).irrefl]
  trans a b c hab hbc := by
    rw [before_iff] at hab hbc ⊢
    rcases hab with hab | ⟨heq, hab⟩ <;> rcases hbc with hbc | ⟨heq', hbc⟩
    · exact .inl (hbc.trans hab)
    · exact .inl (heq' ▸ hab)
    · exact .inl (heq ▸ hbc)
    · exact .inr ⟨heq.trans heq', (tieLess_strictTotal tie).trans a b c hab hbc⟩
  total a b hne := by
    rw [before_iff, before_iff]
    rcases Nat.lt_trichotomy (popcount a) (popcount b) with h | h | h
    · exact .inr (.inl h)
    · exact ((tieLess_strictTotal tie).total a b hne).imp (fun h' => .inr ⟨h, h'⟩)
        fun h' => .inr ⟨h.symm, h'⟩
    · exact .inl (.inl h)

/-- Words with the same bit 31 compare alike signed and unsigned. -/
theorem toInt_lt_toInt_iff_of_bit31_eq {a b : Word} (h : a.getLsbD 31 = b.getLsbD 31) :
    a.toInt < b.toInt ↔ a.toNat < b.toNat := by
  have hmsb : a.msb = b.msb := by rw [BitVec.msb_eq_getLsbD_last, BitVec.msb_eq_getLsbD_last, h]
  rw [BitVec.toInt_eq_msb_cond, BitVec.toInt_eq_msb_cond, hmsb]
  cases b.msb with
  | false => simp
  | true => simp

/-- The signed and the unsigned tie order agree, ascending and descending, on words with the same bit
31 (rule R90). -/
theorem tieLess_signed_eq_unsigned {a b : Word} (h : a.getLsbD 31 = b.getLsbD 31) :
    tieLess .ascSigned a b = tieLess .ascUnsigned a b ∧
    tieLess .descSigned a b = tieLess .descUnsigned a b :=
  ⟨decide_eq_decide.2 (toInt_lt_toInt_iff_of_bit31_eq h),
    decide_eq_decide.2 (toInt_lt_toInt_iff_of_bit31_eq h.symm)⟩

/-- Settles O20, from `before_strictTotal`, the tie orders one by one, and the agreement of signed and
unsigned comparison under one bit 31. -/
theorem priorityIsAStrictTotalOrderOnMasks : Obligations.PriorityIsAStrictTotalOrderOnMasks := by
  intro tie
  have hb := before_strictTotal tie
  refine ⟨fun a b => ?_, hb.irrefl, fun _ _ => hb.eq_not, hb.trans, fun a b h => ?_⟩
  · cases tie with
    | ascUnsigned => rw [before_iff, tieLess_ascUnsigned]
    | descUnsigned => rw [before_iff, tieLess_descUnsigned]
    | ascSigned => rw [before_iff, tieLess_ascSigned]
    | descSigned => rw [before_iff, tieLess_descSigned]
  · obtain ⟨hasc, hdesc⟩ := tieLess_signed_eq_unsigned h
    exact ⟨by rw [before, before, hasc], by rw [before, before, hdesc]⟩

end Sys2Proof.Machine
end

section
/-! DEC.DECODE and DEC.ADD (rules R91 to R94): what each answers, from what the search of the groups
gives and from what entering a pattern does to the list of groups. -/

namespace Sys2Proof.Machine

/-- DEC.DECODE when the search finds an entry (rule R94). -/
theorem exec_decDecode_of_some {s : State} {w : Word} {d : BasicDescriptor}
    (h : decodeWord s.blk.groups w = some d) :
    exec (.decDecode w) s = respond s .ok (.basicDescriptor d) := by
  simp only [exec, execDecDecode, h]

/-- DEC.DECODE when the search finds nothing (rule R94). -/
theorem exec_decDecode_of_none {s : State} {w : Word} (h : decodeWord s.blk.groups w = none) :
    exec (.decDecode w) s = respond s .none .none := by
  simp only [exec, execDecDecode, h]

/-- Settles O17, from what `decodeWord` gives: the first group that holds the word, or nothing. -/
theorem decodeAnswersFromTheFirstGroupThatHoldsTheWord :
    Obligations.DecodeAnswersFromTheFirstGroupThatHoldsTheWord := by
  refine fun s w => ⟨fun front back g d hgs hfront hg => ?_, fun hnone => ?_⟩
  · exact exec_decDecode_of_some (by rw [hgs, decodeWord_append hfront hg])
  · exact exec_decDecode_of_none ((decodeWord_eq_none_iff _ _).2 hnone)

/-- A pattern of a mask that has a group is entered in that group: every mask keeps its place (rule
R91). -/
theorem map_mask_enterPattern_of_mem (tie : TieOrder) {d : BasicDescriptor} {gs : List Group}
    (h : d.mask ∈ gs.map Group.mask) :
    (enterPattern tie d gs).map Group.mask = gs.map Group.mask := by
  unfold enterPattern
  cases hf : findGroup gs d.mask with
  | none => exact absurd h ((findGroup_eq_none_iff _ _).1 hf)
  | some g => exact map_mask_replaceGroup _ _

/-- A pattern of a new mask is entered as a group of its own, at one place of the list (rule R91). -/
theorem enterPattern_split_of_not_mem (tie : TieOrder) {d : BasicDescriptor} {gs : List Group}
    (h : d.mask ∉ gs.map Group.mask) :
    ∃ front back, gs = front ++ back ∧
      enterPattern tie d gs = front ++ ⟨d.mask, [(d.matchBits, d)]⟩ :: back := by
  rw [enterPattern, (findGroup_eq_none_iff _ _).2 h]
  obtain ⟨front, back, hgs, hins, -⟩ := insertGroup_split tie ⟨d.mask, [(d.matchBits, d)]⟩ gs
  exact ⟨front, back, hgs, hins⟩

section
variable {p : Proto} {s : State} (hs : s.blk.phase = .build)
include hs

/-- DEC.ADD of a malformed template (rule R92). -/
theorem exec_decAdd_of_error {e : Diag} (he : compile p = .error e) :
    exec (.decAdd p) s = failWith s e := by
  simpa [he] using exec_decAdd_build p hs

/-- DEC.ADD of a pattern the decoder holds (rules R91, R92). -/
theorem exec_decAdd_of_some {d first : BasicDescriptor} (hd : compile p = .ok d)
    (hfirst : entryAt s.blk.groups d.mask d.matchBits = some first) :
    exec (.decAdd p) s = failWith s (dupDiag d) := by
  simpa [hd, hfirst, failWith] using exec_decAdd_build p hs

/-- DEC.ADD of a new pattern (rules R91, R92). -/
theorem exec_decAdd_of_none {d : BasicDescriptor} (hd : compile p = .ok d)
    (hnew : entryAt s.blk.groups d.mask d.matchBits = none) :
    exec (.decAdd p) s =
      respondWith s { s.blk with groups := enterPattern Config.params.tieOrder d s.blk.groups }
        .ok .none := by
  simpa [hd, hnew] using exec_decAdd_build p hs

end

/-- Settles O19: one lemma for each end of DEC.ADD, and for a new pattern what `enterPattern` does to
the entries, to the masks and to their order. -/
theorem decAddEntersANewPatternAndKeepsTheFirst :
    Obligations.DecAddEntersANewPatternAndKeepsTheFirst := by
  refine fun p s => ⟨exec_published rfl, fun e hs he => exec_decAdd_of_error hs he,
    fun d first hs hd hfirst => exec_decAdd_of_some hs hd hfirst, fun d hs hd hnew => ?_⟩
  exact ⟨enterPattern Config.params.tieOrder d s.blk.groups, exec_decAdd_of_none hs hd hnew,
    entryAt_enterPattern _ d _, map_mask_enterPattern_of_mem _, enterPattern_split_of_not_mem _,
    fun hinv =>
      (groupsOk_enterPattern (before_strictTotal _) hinv.groups (descriptorOk_of_compile hd)).sorted⟩

end Sys2Proof.Machine
end

section
/-! REG.BASIC and REG.EXT (rules R110 to R113): each end of REG.BASIC on its own, and the two statements
on them, whose overload lists are those of `indexMnemonic`. -/

namespace Sys2Proof.Machine

section
variable {p : Proto} {s : State} (hs : s.blk.phase = .build)
include hs

/-- REG.BASIC of a malformed template (rule R111). -/
theorem exec_regBasic_of_error {e : Diag} (he : compile p = .error e) :
    exec (.regBasic p) s = failWith s e := by
  simpa [he] using exec_regBasic_build p hs

/-- REG.BASIC of a pattern the decoder holds (rules R110, R111). -/
theorem exec_regBasic_of_some {d first : BasicDescriptor} (hd : compile p = .ok d)
    (hfirst : entryAt s.blk.groups d.mask d.matchBits = some first) :
    exec (.regBasic p) s =
      respondWith s
        (if Config.params.collisionRollback then s.blk.addDiag (dupDiag d)
         else (s.blk.addDiag (dupDiag d)).addBasic d) .err (.diag (dupDiag d)) := by
  simpa [hd, hfirst] using exec_regBasic_build p hs

/-- REG.BASIC of a new pattern (rules R110, R111). -/
theorem exec_regBasic_of_none {d : BasicDescriptor} (hd : compile p = .ok d)
    (hnew : entryAt s.blk.groups d.mask d.matchBits = none) :
    exec (.regBasic p) s =
      respondWith s
        (({ s.blk with
            groups := enterPattern Config.params.tieOrder d s.blk.groups } : Block).addBasic d)
        .ok .none := by
  simpa [hd, hnew] using exec_regBasic_build p hs

end

/-- Settles O26: one lemma for each end of REG.BASIC, with what `indexMnemonic` does to the overload
lists and `enterPattern` to the entries. -/
theorem regBasicRegistersAndKeepsTheFirstPattern :
    Obligations.RegBasicRegistersAndKeepsTheFirstPattern := by
  refine fun p s => ⟨exec_published rfl, fun e hs he => exec_regBasic_of_error hs he,
    fun d first hs hd hfirst => ?_, fun d hs hd hnew => ?_⟩
  · refine ⟨indexMnemonic (.basic d) s.blk.mnem, ?_, mapGetD_indexMnemonic _ _⟩
    rw [exec_regBasic_of_some hs hd hfirst]
    cases Config.params.collisionRollback with
    | true => rfl
    | false => rfl
  · exact ⟨enterPattern Config.params.tieOrder d s.blk.groups, indexMnemonic (.basic d) s.blk.mnem,
      exec_regBasic_of_none hs hd hnew, entryAt_enterPattern _ d _, mapGetD_indexMnemonic _ _⟩

/-- Settles O27, from the two ends of REG.EXT and what `indexMnemonic` does to the overload lists. -/
theorem regExtAppendsToTheIndices : Obligations.RegExtAppendsToTheIndices := by
  refine fun e s => ⟨exec_published rfl, fun hs => ?_⟩
  exact ⟨indexMnemonic (.extended e) s.blk.mnem, exec_regExt_build e hs, mapGetD_indexMnemonic _ _⟩

end Sys2Proof.Machine
end

section
/-! Resolution (rules R130 to R133) under any acceptance test: `firstAccepting` and `noneAccepting` are
the two ends of the scan of an overload list, and each end gives the answer of the command. -/

namespace Sys2Proof.Machine

/-- A lookup with a default gives the value of a key that the map holds. -/
theorem mapGetD_of_mapGet_eq_some {K V : Type} [DecidableEq K] {mn : FinMap K V} {k : K} {v : V}
    (h : mapGet mn k = some v) (d : V) : mapGetD mn k d = v := by
  rw [mapGetD, h, Option.getD_some]

/-- A lookup with a default gives the default for a key that the map does not hold. -/
theorem mapGetD_of_mapGet_eq_none {K V : Type} [DecidableEq K] {mn : FinMap K V} {k : K}
    (h : mapGet mn k = none) (d : V) : mapGetD mn k d = d := by
  rw [mapGetD, h, Option.getD_none]

section
variable {accepts : OperandType → OperandType → Bool} {given : List OperandType}
  {ds : List Descriptor} {d : Descriptor} {m : Text} {s : State}

/-- The first accepting overload is what the scan of the list finds (rule R131). -/
theorem firstAccepting_iff_find? :
    firstAccepting accepts given ds d ↔
      ds.find? (fun x => sigAccepts accepts (signatureOf x) given) = some d := by
  simp only [firstAccepting, signatureAccepts, ← sigAccepts_iff, List.find?_eq_some_iff_append,
    Bool.not_eq_true, Bool.not_eq_true']
  constructor
  · rintro ⟨front, back, hds, hd, hfront⟩
    exact ⟨hd, front, back, hds, hfront⟩
  · rintro ⟨hd, front, back, hds, hfront⟩
    exact ⟨front, back, hds, hd, hfront⟩

/-- No overload accepts exactly when the scan of the list finds nothing (rule R131). -/
theorem noneAccepting_iff_find? :
    noneAccepting accepts given ds ↔
      ds.find? (fun x => sigAccepts accepts (signatureOf x) given) = none := by
  simp only [noneAccepting, signatureAccepts, ← sigAccepts_iff, List.find?_eq_none]

/-- Every list has a first accepting overload or none. -/
theorem exists_firstAccepting_or_noneAccepting (accepts : OperandType → OperandType → Bool)
    (given : List OperandType) (ds : List Descriptor) :
    (∃ d, firstAccepting accepts given ds d) ∨ noneAccepting accepts given ds := by
  cases h : ds.find? fun x => sigAccepts accepts (signatureOf x) given with
  | some d => exact .inl ⟨d, firstAccepting_iff_find?.2 h⟩
  | none => exact .inr (noneAccepting_iff_find?.2 h)

/-- Resolution scans the overload list of the mnemonic, which is empty where the map has none (rule
R131). -/
theorem resolveWith_eq_find?_mapGetD (accepts : OperandType → OperandType → Bool) (m : Text)
    (given : List OperandType) (b : Block) :
    resolveWith accepts m given b =
      (mapGetD b.mnem m []).find? fun d => sigAccepts accepts (signatureOf d) given := by
  rw [resolveWith, mapGetD]
  cases mapGet b.mnem m with
  | none => rfl
  | some ds => rfl

/-- A resolution answers the first accepting overload (rules R131, R132). -/
theorem resolveBy_of_firstAccepting (h : firstAccepting accepts given (mapGetD s.blk.mnem m []) d) :
    resolveBy accepts m given s = respond s .ok (.descriptor d) := by
  rw [resolveBy, resolveWith_eq_find?_mapGetD, firstAccepting_iff_find?.1 h]

/-- A resolution answers `NONE` where no overload accepts (rules R131, R132). -/
theorem resolveBy_of_noneAccepting (h : noneAccepting accepts given (mapGetD s.blk.mnem m [])) :
    resolveBy accepts m given s = respond s .none .none := by
  rw [resolveBy, resolveWith_eq_find?_mapGetD, noneAccepting_iff_find?.1 h]

end

/-- Settles O31, from the two ends of the scan: the list scanned is the one in the map, the empty one,
or by the invariant's rule R29 the descriptors of the mnemonic in the whole registry. -/
theorem resolveAnswersTheFirstAcceptingOverload :
    Obligations.ResolveAnswersTheFirstAcceptingOverload := by
  intro m given s
  refine ⟨fun ds d hds hd => ?_, fun ds hds hnone => ?_, fun hm => ?_, fun d hinv hd => ?_,
    fun hinv hnone => ?_, exists_firstAccepting_or_noneAccepting _ _ _⟩
  · exact resolveBy_of_firstAccepting (by rwa [mapGetD_of_mapGet_eq_some hds])
  · exact resolveBy_of_noneAccepting (by rwa [mapGetD_of_mapGet_eq_some hds])
  · exact resolveBy_of_noneAccepting (by simp [mapGetD_of_mapGet_eq_none hm, noneAccepting])
  · exact resolveBy_of_firstAccepting (by rwa [hinv.registry.mnem])
  · exact resolveBy_of_noneAccepting (by rwa [hinv.registry.mnem])

end Sys2Proof.Machine
end

section
/-! The edits of the block: the five changes of which everything a command, a step and a run does to the
block is made. Each of them keeps the invariant (rules R22 to R29, R71) and loses nothing (rule R39), so
every run does. -/

namespace Sys2Proof.Machine

/-- One edit of the block. All but the first are made in phase `BUILD` only. -/
inductive Edit : Block → Block → Prop
  | publish (b : Block) : Edit b { b with phase := .published }
  | log {b : Block} (hb : b.phase = .build) {e : Diag} (he : DiagOk e) : Edit b (b.addDiag e)
  | enter {b : Block} (hb : b.phase = .build) {d : BasicDescriptor} (hd : DescriptorOk d)
      (hnew : entryAt b.groups d.mask d.matchBits = none) :
      Edit b { b with groups := enterPattern Config.params.tieOrder d b.groups }
  | basic {b : Block} (hb : b.phase = .build) {d : BasicDescriptor} (hd : DescriptorOk d)
      (hold : (entryAt b.groups d.mask d.matchBits).isSome = true) : Edit b (b.addBasic d)
  | ext {b : Block} (hb : b.phase = .build) (e : ExtendedDescriptor) : Edit b (regExt e b)

/-- A sequence of edits. -/
abbrev Edits : Block → Block → Prop :=
  Relation.ReflTransGen Edit

/-- The diagnostic of a collision is of the form of rule R71. -/
theorem diagOk_dupDiag (d : BasicDescriptor) : DiagOk (dupDiag d) :=
  rfl

/-- The diagnostic of a malformed template is of the form of rule R71. -/
theorem diagOk_of_compile {p : Proto} {e : Diag} (h : compile p = .error e) : DiagOk e := by
  rcases compile_cases p with ⟨-, hok⟩ | ⟨-, e', he', hd⟩
  · cases hok.symm.trans h
  · cases he'.symm.trans h
    exact hd

/-- DEC.ADD in phase `BUILD` logs a diagnostic or enters a pattern (rule R92). -/
theorem edits_decAdd {p : Proto} {s t : State} (hs : s.blk.phase = .build)
    (h : exec (.decAdd p) s = .next t) : Edits s.blk t.blk := by
  rcases exec_decAdd_build p hs with ⟨e, hc, he⟩ | ⟨d, hc, hnew, he⟩ | ⟨d, first, -, -, he⟩ <;>
    rw [exec_blk he h]
  · exact .single (.log hs (diagOk_of_compile hc))
  · exact .single (.enter hs (descriptorOk_of_compile hc) hnew)
  · exact .single (.log hs (diagOk_dupDiag d))

/-- REG.BASIC in phase `BUILD` logs a diagnostic, or enters a pattern and registers its descriptor, or
does both in the registry of a kept collision (rules R110, R111). -/
theorem edits_regBasic {p : Proto} {s t : State} (hs : s.blk.phase = .build)
    (h : exec (.regBasic p) s = .next t) : Edits s.blk t.blk := by
  rcases exec_regBasic_build p hs with ⟨e, hc, he⟩ | ⟨d, hc, hnew, he⟩ | ⟨d, first, hc, hf, he⟩ <;>
    rw [exec_blk he h]
  · exact .single (.log hs (diagOk_of_compile hc))
  · have hd := descriptorOk_of_compile hc
    have henter : Edits s.blk
        { s.blk with groups := enterPattern Config.params.tieOrder d s.blk.groups } :=
      .single (.enter hs hd hnew)
    refine henter.tail (.basic ?_ hd ?_)
    · exact hs
    · simp [entryAt_enterPattern]
  · have hlog : Edits s.blk (s.blk.addDiag (dupDiag d)) := .single (.log hs (diagOk_dupDiag d))
    cases Config.params.collisionRollback with
    | true => exact hlog
    | false =>
      refine hlog.tail (.basic ?_ (descriptorOk_of_compile hc) ?_)
      · exact hs
      · simp [hf]

/-- REG.LOADGRP in phase `BUILD` logs diagnostics and registers extended descriptors (rule R118). -/
theorem edits_regLoadgrp {g : GroupRecord} {s t : State} (hs : s.blk.phase = .build)
    (h : exec (.regLoadgrp g) s = .next t) : Edits s.blk t.blk := by
  rcases exec_regLoadgrp_build g hs with ⟨-, he⟩ | ⟨hg, r, rfl, he⟩ <;> rw [exec_blk he h]
  · exact .single (.log hs ⟨rfl, rfl⟩)
  · exact (loadMatches_induction Config.params g
      (Q := fun b => b.phase = .build ∧ Edits s.blk b)
      (fun e _ hb => ⟨hb.1, hb.2.tail (.ext hb.1 e)⟩)
      (fun _ _ hb => ⟨hb.1, hb.2.tail (.log hb.1 hg)⟩) _ _ _ ⟨hs, .refl⟩).2

/-- Every command edits the block. -/
theorem edits_exec {i : Instr} {s t : State} (h : exec i s = .next t) : Edits s.blk t.blk := by
  cases hi : i.refusedWhenPublished with
  | false =>
    by_cases hp : i = .regPublish
    · subst hp
      rw [exec_blk (exec_regPublish s) h]
      exact .single (.publish s.blk)
    · obtain ⟨st, p, he⟩ := exec_eq_respond s hi hp
      rw [exec_blk he h]
  | true =>
    cases hs : s.blk.phase with
    | published => rw [exec_blk (exec_published hi hs) h]
    | build =>
      cases i with
      | decAdd p => exact edits_decAdd hs h
      | regBasic p => exact edits_regBasic hs h
      | regLoadgrp g => exact edits_regLoadgrp hs h
      | regExt e =>
        rw [exec_blk (exec_regExt_build e hs) h]
        exact .single (.ext hs e)
      | _ => cases hi

/-- Every step edits the block. -/
theorem edits_step {s t : State} (h : step s = .next t) : Edits s.blk t.blk := by
  rcases step_next_cases h with ⟨-, rfl⟩ | ⟨c, rest, i, -, -, he⟩
  · exact .refl
  · exact edits_exec (s := { s with cmds := rest }) he

/-- A run that ends in a state took its first step to a state, and ran on from there. -/
theorem core_run_succ_cases {n : Nat} {s t : State} (h : core.run (n + 1) s = .next t) :
    ∃ u, step s = .next u ∧ core.run n u = .next t := by
  cases hs : step s with
  | next u => exact ⟨u, rfl, by rwa [core_run_next hs] at h⟩
  | fault r => cases r
  | refused r => cases (core_run_refused hs).symm.trans h

/-- Every run edits the block. -/
theorem edits_run {n : Nat} {s t : State} (h : core.run n s = .next t) : Edits s.blk t.blk := by
  induction n generalizing s with
  | zero =>
    cases h
    exact .refl
  | succ n ih =>
    obtain ⟨u, hstep, hrun⟩ := core_run_succ_cases h
    exact (edits_step hstep).trans (ih hrun)

/-! ### The invariant -/

/-- An edit keeps the invariant. -/
theorem blockInv_of_edit {b b' : Block} (h : BlockInv Config.params.tieOrder b) (he : Edit b b') :
    BlockInv Config.params.tieOrder b' := by
  obtain ⟨hgroups, hreg, hlog⟩ := h
  cases he with
  | publish => exact ⟨hgroups, ⟨hreg.basic, hreg.ext, hreg.mnem, hreg.present, hreg.canonical,
      hreg.descriptors, hreg.patterns⟩, hlog⟩
  | log _ hd =>
    refine ⟨hgroups, registryOk_addDiag hreg _, fun x hx => ?_⟩
    rcases List.mem_append.1 hx with hx | hx
    · exact hlog x hx
    · rwa [List.mem_singleton.1 hx]
  | enter _ hd => exact ⟨groupsOk_enterPattern (before_strictTotal _) hgroups hd,
      registryOk_enterPattern hreg _ _, hlog⟩
  | basic _ hd hold => exact ⟨hgroups, registryOk_addBasic hreg hd hold, hlog⟩
  | ext _ e => exact ⟨hgroups, registryOk_regExt hreg e, hlog⟩

/-- Edits keep the invariant. -/
theorem blockInv_of_edits {b b' : Block} (h : BlockInv Config.params.tieOrder b)
    (he : Edits b b') : BlockInv Config.params.tieOrder b' := by
  induction he with
  | refl => exact h
  | tail _ hlast ih => exact blockInv_of_edit ih hlast

/-- Settles O9: a step edits the block, and edits keep the invariant. -/
theorem everyStepKeepsTheInvariant : Obligations.EveryStepKeepsTheInvariant :=
  fun _ _ hs hstep => blockInv_of_edits hs (edits_step hstep)

/-! ### Nothing is lost -/

/-- A block grows into itself. -/
theorem Grows.refl (b : Block) : Grows b b where
  all := List.prefix_rfl
  basic := List.prefix_rfl
  ext := List.prefix_rfl
  mnem _ := List.prefix_rfl
  log := List.prefix_rfl
  groups g hg := ⟨g, hg, rfl, fun _ _ h => h⟩
  published _ := rfl

/-- Growth composes. -/
theorem Grows.trans {a b c : Block} (h : Grows a b) (h' : Grows b c) : Grows a c where
  all := h.all.trans h'.all
  basic := h.basic.trans h'.basic
  ext := h.ext.trans h'.ext
  mnem m := (h.mnem m).trans (h'.mnem m)
  log := h.log.trans h'.log
  groups g hg := by
    obtain ⟨g', hg', hmask, hget⟩ := h.groups g hg
    obtain ⟨g'', hg'', hmask', hget'⟩ := h'.groups g' hg'
    exact ⟨g'', hg'', hmask'.trans hmask, fun k d hk => hget' k d (hget k d hk)⟩
  published ha := by
    have hb := h.published ha
    subst hb
    exact h'.published ha

/-- A registration lengthens one overload list and leaves the others. -/
theorem mapGetD_prefix_indexMnemonic (d : Descriptor) (mn : FinMap Text (List Descriptor))
    (m : Text) : mapGetD mn m [] <+: mapGetD (indexMnemonic d mn) m [] := by
  rw [mapGetD_indexMnemonic]
  split_ifs
  · exact List.prefix_append _ _
  · exact List.prefix_rfl

/-- A group entered leaves every group in the list. -/
theorem mem_insertGroup_of_mem (tie : TieOrder) (g : Group) {gs : List Group} {h : Group}
    (hh : h ∈ gs) : h ∈ insertGroup tie g gs := by
  obtain ⟨front, back, rfl, hins, -⟩ := insertGroup_split tie g gs
  rw [hins]
  exact List.mem_append.2 ((List.mem_append.1 hh).imp_right (List.mem_cons_of_mem _))

/-- A replacement puts the new group in, in the place of the one found, and leaves every other. -/
theorem mem_replaceGroup_of_mem {g h : Group} {gs : List Group} (hh : h ∈ gs) :
    h ∈ replaceGroup g gs ∨ findGroup gs g.mask = some h ∧ g ∈ replaceGroup g gs := by
  induction gs with
  | nil => cases hh
  | cons x rest ih =>
    rw [replaceGroup, findGroup_cons]
    split_ifs
    · rcases List.mem_cons.1 hh with rfl | hh
      · exact .inr ⟨rfl, List.mem_cons_self ..⟩
      · exact .inl (List.mem_cons_of_mem _ hh)
    · rcases List.mem_cons.1 hh with rfl | hh
      · exact .inl (List.mem_cons_self ..)
      · exact (ih hh).imp (List.mem_cons_of_mem _) (.imp_right (List.mem_cons_of_mem _))

/-- A new pattern leaves every group a group of its mask with all its entries (rule R39). -/
theorem groups_kept_by_enterPattern (tie : TieOrder) {d : BasicDescriptor} {gs : List Group}
    (hnew : entryAt gs d.mask d.matchBits = none) {g : Group} (hg : g ∈ gs) :
    ∃ g' ∈ enterPattern tie d gs, g'.mask = g.mask ∧
      ∀ k x, mapGet g.table k = some x → mapGet g'.table k = some x := by
  unfold enterPattern
  unfold entryAt at hnew
  cases hf : findGroup gs d.mask with
  | none => exact ⟨g, mem_insertGroup_of_mem tie _ hg, rfl, fun _ _ h => h⟩
  | some first =>
    obtain ⟨-, hmask⟩ := mem_of_findGroup hf
    rw [hf] at hnew
    rcases mem_replaceGroup_of_mem
      (g := { first with table := mapSet wordLt first.table d.matchBits d }) hg with
      hstays | ⟨hfound, hin⟩
    · exact ⟨g, hstays, rfl, fun _ _ h => h⟩
    · obtain rfl : first = g := Option.some.inj (hf.symm.trans (hmask ▸ hfound))
      refine ⟨_, hin, rfl, fun k x hk => ?_⟩
      have hne : k ≠ d.matchBits := by
        rintro rfl
        cases hnew.symm.trans hk
      rw [mapGet_mapSet, if_neg hne, hk]

/-- A block of phase `BUILD` is not published. -/
theorem not_published_of_build {b : Block} (hb : b.phase = .build) : b.phase ≠ .published := by
  simp [hb]

/-- An edit loses nothing (rule R39). -/
theorem grows_of_edit {b b' : Block} (he : Edit b b') : Grows b b' := by
  cases he with
  | publish => exact { Grows.refl b with published := fun hb => by rw [← hb] }
  | log hb => exact { Grows.refl b with
      log := List.prefix_append _ _
      published := fun h => absurd h (not_published_of_build hb) }
  | enter hb _ hnew => exact { Grows.refl b with
      groups := fun _ hg => groups_kept_by_enterPattern _ hnew hg
      published := fun h => absurd h (not_published_of_build hb) }
  | basic hb => exact { Grows.refl b with
      all := List.prefix_append _ _
      basic := List.prefix_append _ _
      mnem := mapGetD_prefix_indexMnemonic _ _
      published := fun h => absurd h (not_published_of_build hb) }
  | ext hb => exact { Grows.refl b with
      all := List.prefix_append _ _
      ext := List.prefix_append _ _
      mnem := mapGetD_prefix_indexMnemonic _ _
      published := fun h => absurd h (not_published_of_build hb) }

/-- Edits lose nothing (rule R39). -/
theorem grows_of_edits {b b' : Block} (he : Edits b b') : Grows b b' := by
  induction he with
  | refl => exact .refl b
  | tail _ hlast ih => exact ih.trans (grows_of_edit hlast)

/-- Settles O41: a run edits the block, and edits lose nothing. -/
theorem nothingStoredIsEverLost : Obligations.NothingStoredIsEverLost :=
  fun _ _ _ hrun => grows_of_edits (edits_run hrun)

end Sys2Proof.Machine
end

section
/-! The ends of a command: every answer a command can give and the block it leaves with it, said once.
Answers, refusals and the frame of errors (rules R42, R45, R48, R67, R120, R159, R162) are read off. -/

namespace Sys2Proof.Machine

/-- The ways a command `i` can end from a block `b`: the block it leaves and what it answers. -/
inductive Ending (i : Instr) (b : Block) : Block → Status → RspPayload → Prop
  | frozen (hb : b.phase = .published) (hi : i.refusedWhenPublished = true) :
      Ending i b b .frozen .none
  | badcmd (hi : ∃ payload, i = .reserved payload) : Ending i b b .badcmd .none
  | nothing (hi : i.isLookup = true) : Ending i b b .none .none
  | illFormed (hi : ∃ p, i = .tplCompile p) (e : Diag) : Ending i b b .err (.diag e)
  | done {b' : Block} {payload : RspPayload} (hi : ∀ q, i ≠ .reserved q)
      (hb : b.phase = .published → i.refusedWhenPublished = false)
      (hp : ∀ e, payload ≠ .diag e) : Ending i b b' .ok payload
  | logged (hb : b.phase = .build) (hi : i.refusedWhenPublished = true) (e : Diag) :
      Ending i b (b.addDiag e) .err (.diag e)
  | kept (hb : b.phase = .build) {p : Proto} {d : BasicDescriptor} (hi : i = .regBasic p)
      (hd : compile p = .ok d) (hr : Config.params.collisionRollback = false) :
      Ending i b ((b.addDiag (dupDiag d)).addBasic d) .err (.diag (dupDiag d))

/-- No lookup is a population command. -/
theorem not_refused_of_isLookup {i : Instr} (hi : i.isLookup = true) :
    i.refusedWhenPublished = false := by
  cases i <;> simp_all [Instr.isLookup, Instr.refusedWhenPublished]

/-- The reserved code is no lookup. -/
theorem ne_reserved_of_isLookup {i : Instr} (hi : i.isLookup = true) (q : Payload) :
    i ≠ .reserved q := by
  rintro rfl
  cases hi

/-- The reserved code is no population command. -/
theorem ne_reserved_of_refused {i : Instr} (hi : i.refusedWhenPublished = true) (q : Payload) :
    i ≠ .reserved q := by
  rintro rfl
  cases hi

/-- A lookup that answers `OK`. -/
theorem Ending.found {i : Instr} (hi : i.isLookup = true) (b : Block) {payload : RspPayload}
    (hp : ∀ e, payload ≠ .diag e) : Ending i b b .ok payload :=
  .done (ne_reserved_of_isLookup hi) (fun _ => not_refused_of_isLookup hi) hp

/-- TPL.COMPILE of a well-formed template (rule R81). -/
theorem exec_tplCompile_of_ok {p : Proto} {d : BasicDescriptor} (h : compile p = .ok d) (s : State) :
    exec (.tplCompile p) s = respond s .ok (.basicDescriptor d) := by
  simp only [exec, execTplCompile, h]

/-- TPL.COMPILE of another template (rule R81). -/
theorem exec_tplCompile_of_error {p : Proto} {e : Diag} (h : compile p = .error e) (s : State) :
    exec (.tplCompile p) s = respond s .err (.diag e) := by
  simp only [exec, execTplCompile, h]

/-- DEC.OPERANDS when the search finds an entry (rule R95). -/
theorem exec_decOperands_of_some {s : State} {w : Word} {d : BasicDescriptor}
    (h : decodeWord s.blk.groups w = some d) :
    exec (.decOperands w) s = respond s .ok (.operands d (operandFields d.template w)) := by
  simp only [exec, execDecOperands, h]

/-- DEC.OPERANDS when the search finds nothing (rule R95). -/
theorem exec_decOperands_of_none {s : State} {w : Word} (h : decodeWord s.blk.groups w = none) :
    exec (.decOperands w) s = respond s .none .none := by
  simp only [exec, execDecOperands, h]

/-- A resolution answers the descriptor found (rule R132). -/
theorem resolveBy_of_some {accepts : OperandType → OperandType → Bool} {m : Text}
    {given : List OperandType} {s : State} {d : Descriptor}
    (h : resolveWith accepts m given s.blk = some d) :
    resolveBy accepts m given s = respond s .ok (.descriptor d) := by
  rw [resolveBy, h]

/-- A resolution answers `NONE` where nothing is found (rule R132). -/
theorem resolveBy_of_none {accepts : OperandType → OperandType → Bool} {m : Text}
    {given : List OperandType} {s : State} (h : resolveWith accepts m given s.blk = none) :
    resolveBy accepts m given s = respond s .none .none := by
  rw [resolveBy, h]

/-- A resolution ends in one way for all states of one block (rules R45, R132). -/
theorem ending_resolveBy {i : Instr} (hi : i.isLookup = true)
    (accepts : OperandType → OperandType → Bool) (m : Text) (given : List OperandType) (b : Block) :
    ∃ st payload, Ending i b b st payload ∧
      ∀ s : State, s.blk = b → resolveBy accepts m given s = respond s st payload := by
  cases h : resolveWith accepts m given b with
  | none => exact ⟨_, _, .nothing hi, fun s hs => resolveBy_of_none (hs ▸ h)⟩
  | some d => exact ⟨_, _, .found hi b (by simp), fun s hs => resolveBy_of_some (hs ▸ h)⟩

/-- A lookup writes nothing, and it ends in one way for all states of one block (rules R45, R139). -/
theorem ending_of_isLookup {i : Instr} (hi : i.isLookup = true) (b : Block) :
    ∃ st payload, Ending i b b st payload ∧
      ∀ s : State, s.blk = b → exec i s = respond s st payload := by
  cases i with
  | tplCompile p =>
    cases h : compile p with
    | ok d => exact ⟨_, _, .found hi b (by simp), fun s _ => exec_tplCompile_of_ok h s⟩
    | error e => exact ⟨_, _, .illFormed ⟨p, rfl⟩ e, fun s _ => exec_tplCompile_of_error h s⟩
  | decDecode w =>
    cases h : decodeWord b.groups w with
    | none => exact ⟨_, _, .nothing hi, fun s hs => exec_decDecode_of_none (hs ▸ h)⟩
    | some d => exact ⟨_, _, .found hi b (by simp), fun s hs => exec_decDecode_of_some (hs ▸ h)⟩
  | decOperands w =>
    cases h : decodeWord b.groups w with
    | none => exact ⟨_, _, .nothing hi, fun s hs => exec_decOperands_of_none (hs ▸ h)⟩
    | some d => exact ⟨_, _, .found hi b (by simp), fun s hs => exec_decOperands_of_some (hs ▸ h)⟩
  | regResolve m given => exact ending_resolveBy hi _ m given b
  | regResolvel m given => exact ending_resolveBy hi _ m given b
  | regPrefix p => exact ⟨_, _, .found hi b (payload := .descriptors (prefixSearch p b)) (by simp),
      fun s hs => hs ▸ rfl⟩
  | enumAll => exact ⟨_, _, .found hi b (payload := .descriptors b.all) (by simp),
      fun s hs => hs ▸ rfl⟩
  | enumBasic => exact ⟨_, _, .found hi b (payload := .basics b.basic) (by simp),
      fun s hs => hs ▸ rfl⟩
  | enumExt => exact ⟨_, _, .found hi b (payload := .extendeds b.ext) (by simp),
      fun s hs => hs ▸ rfl⟩
  | logRead => exact ⟨_, _, .found hi b (payload := .diags b.log) (by simp),
      fun s hs => hs ▸ rfl⟩
  | reserved => cases hi
  | decAdd => cases hi
  | regBasic => cases hi
  | regExt => cases hi
  | regLoadgrp => cases hi
  | regPublish => cases hi

/-- A population command in phase `BUILD` registers what it is given, logs a diagnostic, or keeps a
collision (rules R92, R111, R113, R118). -/
theorem ending_of_build {i : Instr} (hi : i.refusedWhenPublished = true) {s : State}
    (hs : s.blk.phase = .build) :
    ∃ b' st payload, Ending i s.blk b' st payload ∧ exec i s = respondWith s b' st payload := by
  have hb : s.blk.phase = .published → i.refusedWhenPublished = false :=
    fun h => absurd h (not_published_of_build hs)
  cases i with
  | decAdd p =>
    rcases exec_decAdd_build p hs with ⟨e, -, he⟩ | ⟨d, -, -, he⟩ | ⟨d, first, -, -, he⟩
    · exact ⟨_, _, _, .logged hs hi e, he⟩
    · exact ⟨_, _, _, .done (by simp) hb (by simp), he⟩
    · exact ⟨_, _, _, .logged hs hi _, he⟩
  | regBasic p =>
    rcases exec_regBasic_build p hs with ⟨e, -, he⟩ | ⟨d, -, -, he⟩ | ⟨d, first, hd, -, he⟩
    · exact ⟨_, _, _, .logged hs hi e, he⟩
    · exact ⟨_, _, _, .done (by simp) hb (by simp), he⟩
    · cases hr : Config.params.collisionRollback with
      | true => exact ⟨_, _, _, .logged hs hi _, by simpa [hr] using he⟩
      | false => exact ⟨_, _, _, .kept hs rfl hd hr, by simpa [hr] using he⟩
  | regExt e => exact ⟨_, _, _, .done (by simp) hb (by simp), exec_regExt_build e hs⟩
  | regLoadgrp g =>
    rcases exec_regLoadgrp_build g hs with ⟨-, he⟩ | ⟨-, r, -, he⟩
    · exact ⟨_, _, _, .logged hs hi _, he⟩
    · exact ⟨_, _, _, .done (by simp) hb (by simp), he⟩
  | _ => cases hi

/-- Every command is a lookup, a population command, REG.PUBLISH or the reserved code. -/
theorem instr_kinds (i : Instr) :
    i.isLookup = true ∨ i.refusedWhenPublished = true ∨ i = .regPublish ∨
      ∃ payload, i = .reserved payload := by
  cases i <;> simp [Instr.isLookup, Instr.refusedWhenPublished]

/-- Every command ends, in every state, in one of the ways of `Ending` (rule R42). -/
theorem exists_ending (i : Instr) (s : State) :
    ∃ b' st payload, Ending i s.blk b' st payload ∧ exec i s = respondWith s b' st payload := by
  rcases instr_kinds i with hi | hi | rfl | ⟨payload, rfl⟩
  · obtain ⟨st, payload, hend, he⟩ := ending_of_isLookup hi s.blk
    exact ⟨_, st, payload, hend, he s rfl⟩
  · cases hs : s.blk.phase with
    | published => exact ⟨_, _, _, .frozen hs hi, exec_published hi hs⟩
    | build => exact ending_of_build hi hs
  · exact ⟨_, _, _, .done (by simp) (fun _ => rfl) (by simp), exec_regPublish s⟩
  · exact ⟨_, _, _, .badcmd ⟨payload, rfl⟩, rfl⟩

/-- Settles O36: each end of a command has its status and a payload that fits it. -/
theorem everyCommandIsAnsweredOnce : Obligations.EveryCommandIsAnsweredOnce := by
  intro i s
  obtain ⟨b', st, payload, hend, he⟩ := exists_ending i s
  refine ⟨b', ⟨st, payload⟩, he, ?_⟩
  cases hend with
  | frozen hb hi => simp [hb, hi, ne_reserved_of_refused hi]
  | badcmd hi =>
    obtain ⟨q, rfl⟩ := hi
    simp [Instr.refusedWhenPublished]
  | nothing hi => simp [not_refused_of_isLookup hi, ne_reserved_of_isLookup hi]
  | illFormed hi e =>
    obtain ⟨p, rfl⟩ := hi
    simp [Instr.refusedWhenPublished]
  | done hi hb hp => simpa [hi, hp] using hb
  | logged hb hi e => simp [hb, ne_reserved_of_refused hi]
  | kept hb hi => simp [hb, hi]

/-- Settles O37: a lookup ends in one way for all states of one block. -/
theorem lookupsReadTheBlockAndNothingElse : Obligations.LookupsReadTheBlockAndNothingElse := by
  intro i b hi
  obtain ⟨st, payload, -, he⟩ := ending_of_isLookup hi b
  exact ⟨⟨st, payload⟩, he⟩

/-- Settles O38: the ends without `OK` leave the block, or log one diagnostic, or keep a collision. -/
theorem errorsChangeTheLogAndOnlyAKeptCollisionTheIndices :
    Obligations.ErrorsChangeTheLogAndOnlyAKeptCollisionTheIndices := by
  intro i s t r h hr
  obtain ⟨b', st, payload, hend, he⟩ := exists_ending i s
  cases he.symm.trans h
  obtain rfl : Response.mk st payload = r := Option.some.inj hr
  cases hend with
  | frozen | badcmd | nothing => simp
  | illFormed hi e =>
    obtain ⟨p, rfl⟩ := hi
    simp
  | done _ _ hp => simp [hp]
  | logged hb hi e =>
    refine ⟨by simp, ?_, ?_⟩
    · rintro - ⟨p, rfl⟩
      cases hi
    · simp
  | kept hb hi hd hrb =>
    subst hi
    refine ⟨by simp, by simp, ?_⟩
    rintro e he -
    cases he
    exact ⟨rfl, rfl, rfl, rfl, .inr ⟨hrb, rfl, _, _, rfl, hd, rfl, rfl, mapGetD_indexMnemonic _ _⟩⟩

/-! ### After publish -/

/-- A second REG.PUBLISH writes nothing (rule R120). -/
theorem exec_regPublish_of_published {s : State} (hs : s.blk.phase = .published) :
    exec .regPublish s = respond s .ok .none := by
  rw [exec_regPublish, ← hs]
  rfl

/-- After publish a command writes nothing, and its answer is that of its block alone (rules R45,
R48). -/
theorem exec_of_published (i : Instr) {b : Block} (hb : b.phase = .published) :
    ∃ r, ∀ s : State, s.blk = b → exec i s = .next { s with rsp := some r } := by
  rcases instr_kinds i with hi | hi | rfl | ⟨payload, rfl⟩
  · obtain ⟨st, payload, -, he⟩ := ending_of_isLookup hi b
    exact ⟨⟨st, payload⟩, he⟩
  · exact ⟨⟨.frozen, .none⟩, fun s hs => exec_published hi (hs ▸ hb)⟩
  · exact ⟨⟨.ok, .none⟩, fun s hs => exec_regPublish_of_published (hs ▸ hb)⟩
  · exact ⟨⟨.badcmd, .none⟩, fun s _ => rfl⟩

/-- Settles O42: a run from a published block keeps it, and the answers are those of the block. -/
theorem publishedAnswersNeverChange : Obligations.PublishedAnswersNeverChange := by
  intro n s t hs hrun
  have hblk : t.blk = s.blk := (nothingStoredIsEverLost n s t hrun).published hs
  refine ⟨hblk, fun i => ?_⟩
  obtain ⟨r, hr⟩ := exec_of_published i hs
  exact ⟨r, hr s rfl, hr t hblk⟩

/-- Settles O30: the two ends that refuse. -/
theorem theTwoRefusalsChangeNothing : Obligations.TheTwoRefusalsChangeNothing :=
  fun _ => ⟨fun _ hs hi => exec_published hi hs, fun _ => rfl⟩

/-- Settles O29: REG.PUBLISH writes the phase, and after it no command writes anything. -/
theorem publishEndsPopulation : Obligations.PublishEndsPopulation := by
  intro s
  refine ⟨_, exec_regPublish s, rfl, rfl, fun i hi => exec_published hi rfl, fun i u hu => ?_⟩
  exact (grows_of_edits (edits_exec hu)).published rfl

/-! ### Who writes what -/

/-- DEC.ADD writes the groups and the log alone (rule R91). -/
theorem frame_decAdd {p : Proto} {s t : State} (h : exec (.decAdd p) s = .next t) :
    t.blk.all = s.blk.all ∧ t.blk.mnem = s.blk.mnem ∧ t.blk.basic = s.blk.basic ∧
      t.blk.ext = s.blk.ext ∧ t.blk.phase = s.blk.phase := by
  cases hs : s.blk.phase with
  | published => simp [exec_blk (exec_published rfl hs) h, hs]
  | build =>
    rcases exec_decAdd_build p hs with ⟨e, -, he⟩ | ⟨d, -, -, he⟩ | ⟨d, first, -, -, he⟩ <;>
      simp [exec_blk he h, hs]

/-- REG.BASIC leaves the extended list and the phase (rule R110). -/
theorem frame_regBasic {p : Proto} {s t : State} (h : exec (.regBasic p) s = .next t) :
    t.blk.ext = s.blk.ext ∧ t.blk.phase = s.blk.phase := by
  cases hs : s.blk.phase with
  | published => simp [exec_blk (exec_published rfl hs) h, hs]
  | build =>
    rcases exec_regBasic_build p hs with ⟨e, -, he⟩ | ⟨d, -, -, he⟩ | ⟨d, first, -, -, he⟩
    · simp [exec_blk he h, hs]
    · simp [exec_blk he h, hs]
    · cases hr : Config.params.collisionRollback <;> simp [exec_blk he h, hr, hs]

/-- REG.EXT writes the three indices alone (rule R112). -/
theorem frame_regExt {e : ExtendedDescriptor} {s t : State} (h : exec (.regExt e) s = .next t) :
    t.blk.basic = s.blk.basic ∧ t.blk.groups = s.blk.groups ∧ t.blk.log = s.blk.log ∧
      t.blk.phase = s.blk.phase := by
  cases hs : s.blk.phase with
  | published => simp [exec_blk (exec_published rfl hs) h, hs]
  | build => simp [exec_blk (exec_regExt_build e hs) h, hs]

/-- REG.LOADGRP leaves the basic list, the groups and the phase (rule R118). -/
theorem frame_regLoadgrp {g : GroupRecord} {s t : State} (h : exec (.regLoadgrp g) s = .next t) :
    t.blk.basic = s.blk.basic ∧ t.blk.groups = s.blk.groups ∧ t.blk.phase = s.blk.phase := by
  cases hs : s.blk.phase with
  | published => simp [exec_blk (exec_published rfl hs) h, hs]
  | build =>
    rcases exec_regLoadgrp_build g hs with ⟨-, he⟩ | ⟨-, r, rfl, he⟩
    · simp [exec_blk he h, hs]
    · obtain ⟨-, -, mnem, hblk, -⟩ := loadMatches_spec Config.params g g.matchRecords 0 ⟨0, [], s.blk⟩
      simp [exec_blk he h, hblk, hs]

/-- A command that is neither a population command nor REG.PUBLISH leaves the block (rules R45, R158). -/
theorem frame_of_not_refused {i : Instr} (hi : i.refusedWhenPublished = false)
    (hp : i ≠ .regPublish) {s t : State} (h : exec i s = .next t) : t.blk = s.blk := by
  obtain ⟨st, payload, he⟩ := exec_eq_respond s hi hp
  exact exec_blk he h

/-- No command touches the rest of the stream (rule R41). -/
theorem exec_cmds {i : Instr} {s t : State} (h : exec i s = .next t) : t.cmds = s.cmds := by
  obtain ⟨b', st, payload, -, he⟩ := exists_ending i s
  cases he.symm.trans h
  rfl

/-- Settles O40: what each of the four population commands and REG.PUBLISH leaves, and that every other
command leaves the block. -/
theorem eachStoreIsWrittenByItsOwnCommandsOnly :
    Obligations.EachStoreIsWrittenByItsOwnCommandsOnly := by
  intro i s t h
  have hcmds := exec_cmds h
  rcases instr_kinds i with hi | hi | rfl | ⟨payload, rfl⟩
  · have hp : i ≠ .regPublish := by
      rintro rfl
      cases hi
    simp [frame_of_not_refused (not_refused_of_isLookup hi) hp h, hcmds]
  · cases i with
    | decAdd p => simp [frame_decAdd h, hcmds]
    | regBasic p => simp [frame_regBasic h, hcmds]
    | regExt e => simp [frame_regExt h, hcmds]
    | regLoadgrp g => simp [frame_regLoadgrp h, hcmds]
    | _ => cases hi
  · cases hs : s.blk.phase <;> simp [exec_blk (exec_regPublish s) h, hcmds]
  · simp [frame_of_not_refused rfl (by simp) h, hcmds]

end Sys2Proof.Machine
end

section
/-! The command port and the step (rules R41, R66, R171), and the reset state (rules R38, R172). -/

namespace Sys2Proof.Machine

/-- `decode` reads back what `encode` writes (rule R66). -/
@[simp] theorem decode_encode (i : Instr) : decode (encode i) = .ok i := by
  cases i <;> rfl

/-- A port value that `decode` reads as a command is what `encode` writes for it, code by code and
payload type by payload type (rule R66). -/
theorem encode_of_decode {i : Instr} {c : Command} (h : decode c = .ok i) : encode i = c := by
  obtain ⟨⟨k⟩, payload⟩ := c
  fin_cases k <;> cases payload <;> cases h <;> rfl

/-- Settles O1: `decode` reads back what `encode` writes, and reads nothing else. -/
theorem decodeReadsExactlyWhatEncodeWrites : Obligations.DecodeReadsExactlyWhatEncodeWrites := by
  refine fun i c => ⟨encode_of_decode, ?_⟩
  rintro rfl
  exact decode_encode i

/-- What `encode` writes has a payload of the type its code's row names (rule R66). -/
theorem wellFormed_encode (i : Instr) : (encode i).wellFormed = true := by
  cases i <;> rfl

/-- A port value whose payload has another type is refused by name, code by code and payload type by
payload type (log entry 1). -/
theorem decode_of_not_wellFormed {c : Command} (h : c.wellFormed = false) :
    decode c = .error (.mistypedPayload c.code) := by
  obtain ⟨⟨k⟩, payload⟩ := c
  fin_cases k <;> cases payload <;> cases h <;> rfl

/-- A port value whose payload has the type its code's row names is a command, code by code and
payload type by payload type (rule R66). -/
theorem exists_decode_of_wellFormed {c : Command} (h : c.wellFormed = true) :
    ∃ i, decode c = .ok i := by
  obtain ⟨⟨k⟩, payload⟩ := c
  fin_cases k <;> cases payload <;> cases h <;> exact ⟨_, rfl⟩

/-- A port value is a command exactly when its payload has the type its code's row names. -/
theorem exists_decode_iff_wellFormed (c : Command) :
    (∃ i, decode c = .ok i) ↔ c.wellFormed = true := by
  refine ⟨?_, exists_decode_of_wellFormed⟩
  rintro ⟨i, hi⟩
  rw [← encode_of_decode hi]
  exact wellFormed_encode i

/-- A step runs the command at the head of the stream (rule R41). -/
theorem step_of_decode {s : State} {c : Command} {rest : List Command} {i : Instr}
    (hs : s.cmds = c :: rest) (hd : decode c = .ok i) : step s = exec i { s with cmds := rest } := by
  simp only [step, fetch, hs, hd]

/-- A step refuses a port value of another payload type (log entry 1). -/
theorem step_of_not_wellFormed {s : State} {c : Command} {rest : List Command}
    (hs : s.cmds = c :: rest) (hc : c.wellFormed = false) :
    step s = .refused (.mistypedPayload c.code) := by
  simp only [step, fetch, hs, decode_of_not_wellFormed hc]

/-- Settles O2: the port values that are no commands are those of another payload type. -/
theorem decodeRefusesExactlyTheMistypedPayloads :
    Obligations.DecodeRefusesExactlyTheMistypedPayloads := fun c =>
  ⟨exists_decode_iff_wellFormed c, fun hc =>
    ⟨decode_of_not_wellFormed hc, fun _ _ hs => step_of_not_wellFormed hs hc⟩⟩

/-- Settles O4, which is `step_of_decode`. -/
theorem stepRunsTheNextCommandOfTheStream : Obligations.StepRunsTheNextCommandOfTheStream :=
  fun _ _ _ _ => step_of_decode

/-- Settles O5: with an empty stream there is nothing to fetch. -/
theorem stepWithoutACommandIsQuiescent : Obligations.StepWithoutACommandIsQuiescent := by
  intro s hs
  simp only [step, fetch, hs]

/-- Settles O3: each code is decoded by evaluation. -/
theorem commandTableWordsDecode : Obligations.CommandTableWordsDecode := by
  refine ⟨?_, ?_, ?_, ?_, ?_, ?_, ?_, ?_, ?_, ?_, ?_, ?_, ?_, ?_, ?_, ?_⟩ <;> rfl

/-- A row of the table stands for a command exactly when its port value does (log entry 2). -/
theorem decodeTableWord_eq_some_iff {nbits w : Nat} {i : Instr} :
    decodeTableWord nbits w = some i ↔ decode (tableCommand w) = .ok i := by
  unfold decodeTableWord
  cases decode (tableCommand w) <;> simp

/-- Settles O6: the word placed is the port value at the head of the stream. -/
theorem aPlacedTableWordRunsNext : Obligations.APlacedTableWordRunsNext := fun s _ w _ hi =>
  step_of_decode (s := placeCommand (tableCommand w) s) rfl (decodeTableWord_eq_some_iff.1 hi)

/-- Settles O7: the reset state by evaluation, and the lookups on its empty lists and maps. -/
theorem resetLeavesAnEmptyBlockInPhaseBuild : Obligations.ResetLeavesAnEmptyBlockInPhaseBuild :=
  ⟨rfl, rfl, rfl, rfl, rfl, rfl, rfl, rfl, fun _ => rfl, fun _ _ => rfl, fun _ => rfl⟩

/-- The empty block satisfies the invariant, under every tie order. -/
theorem blockInv_reset (tie : TieOrder) : BlockInv tie Block.reset where
  groups := ⟨List.nodup_nil, List.Pairwise.nil, by simp [Block.reset]⟩
  registry :=
    { basic := rfl
      ext := rfl
      mnem := fun _ => rfl
      present := by simp [Block.reset]
      canonical := List.Pairwise.nil
      descriptors := by simp [Block.reset]
      patterns := by simp [Block.reset] }
  log := by simp [Block.reset]

/-- Settles O8: the block after reset is the empty one. -/
theorem resetSatisfiesTheInvariant : Obligations.ResetSatisfiesTheInvariant :=
  blockInv_reset _

end Sys2Proof.Machine
end

section
/-! Compilation and matching (rules R56, R59, R80 to R83): the order of the checks of `compile`, and
which words a descriptor matches. -/

namespace Sys2Proof.Machine

/-- The alphabet of a text, character by character (rule R56). -/
theorem all_inAlphabet_iff (t : Text) :
    t.all Template.inAlphabet = true ↔
      ∀ x ∈ t, x = '0' ∨ x = '1' ∨ x = 'f' ∨ x = 's' ∨ x = 't' := by
  simp only [List.all_eq_true, inAlphabet_iff]

/-- A template of 32 characters with a bad one is reported at the first of them (rule R80). -/
theorem compile_of_bad_char {p : Proto} {pre post : Text} {c : Char}
    (ht : p.template = pre ++ c :: post) (hlen : p.template.length = 32)
    (hpre : pre.all Template.inAlphabet = true) (hc : Template.inAlphabet c = false) :
    compile p = .error ⟨.eTplChar, p.mnemonic, pre.length⟩ := by
  rw [compile_of_length_eq hlen, ht, firstBadChar_append hpre hc, Nat.zero_add]

/-- Settles O11: one lemma for each of the three ends of `compile`. -/
theorem compileChecksLengthThenCharactersAndNothingElse :
    Obligations.CompileChecksLengthThenCharactersAndNothingElse := by
  refine fun p => ⟨compile_of_length, fun pre post c ht hlen hpre hc => ?_, fun hlen hall => ?_⟩
  · refine compile_of_bad_char ht hlen ((all_inAlphabet_iff pre).2 hpre) ?_
    rwa [← inAlphabet_iff, Bool.not_eq_true] at hc
  · have hwf := (wellFormed_iff _).2 ⟨hlen, (all_inAlphabet_iff _).2 hall⟩
    exact ⟨_, _, (compile_eq_ok_iff p _).2 ⟨hwf, rfl⟩⟩

/-- Settles O12: the two ends of `compile`, answered as they are. -/
theorem tplCompileAnswersAndWritesNothing : Obligations.TplCompileAnswersAndWritesNothing := by
  refine fun p s => ⟨fun hw => ?_, fun hw => ?_⟩ <;>
    rcases compile_cases p with ⟨hw', hc⟩ | ⟨hw', e, hc, -⟩
  · exact ⟨_, hc, exec_tplCompile_of_ok hc s⟩
  · cases hw.symm.trans hw'
  · cases hw.symm.trans hw'
  · exact ⟨_, hc, exec_tplCompile_of_error hc s⟩

/-- A word is its fixed bits and its variable bits. -/
theorem word_eq_fixed_or_variable (w m : Word) : w = w &&& m ||| w &&& ~~~ m := by
  rw [← BitVec.and_or_distrib_left, BitVec.or_not_self, BitVec.and_allOnes]

/-- A match within its mask is matched whatever the variable bits (rule R59). -/
theorem matchesWord_or_variable {d : BasicDescriptor} (h : d.mask &&& d.matchBits = d.matchBits)
    (v : Word) : matchesWord d (d.matchBits ||| (v &&& ~~~ d.mask)) := by
  have hnone : d.mask &&& (v &&& ~~~ d.mask) = 0#32 := by
    rw [BitVec.and_comm v, ← BitVec.and_assoc, BitVec.and_not_self]
    exact BitVec.zero_and
  rw [matchesWord, BitVec.and_comm, BitVec.and_or_distrib_left, h, hnone, BitVec.or_zero]

/-- A word that matches is the match with its own variable bits (rule R59). -/
theorem eq_of_matchesWord {d : BasicDescriptor} {w : Word} (h : matchesWord d w) :
    w = d.matchBits ||| (w &&& ~~~ d.mask) := by
  rw [← h]
  exact word_eq_fixed_or_variable w d.mask

/-- Settles O13: the match of a descriptor that `compile` gives lies within its mask. -/
theorem matchLiesWithinMask : Obligations.MatchLiesWithinMask := by
  intro p d hd
  have hwithin := (descriptorOk_of_compile hd).within
  exact ⟨hwithin, matchesWord_or_variable hwithin, fun w => eq_of_matchesWord⟩

/-- A template of literals alone fixes every bit (rule R82). -/
theorem maskOf_of_literals {t : Text} (hlen : t.length = 32) (h : ∀ c ∈ t, c = '0' ∨ c = '1') :
    maskOf t = BitVec.allOnes 32 := by
  refine word_ext fun i hi => ?_
  have hlit := h t[i] (List.getElem_mem (by omega))
  rw [getLsbD_maskOf hlen hi, List.getElem?_eq_getElem (by omega), BitVec.getLsbD_allOnes]
  simpa [show 31 - i < 32 by omega] using hlit

/-- A template without a literal fixes no bit (rule R82). -/
theorem maskOf_of_placeholders {t : Text} (hlen : t.length = 32)
    (h : ∀ c ∈ t, c ≠ '0' ∧ c ≠ '1') : maskOf t = 0#32 := by
  refine word_ext fun i hi => ?_
  have hlit := h t[i] (List.getElem_mem (by omega))
  rw [getLsbD_maskOf hlen hi, List.getElem?_eq_getElem (by omega)]
  simpa using hlit

/-- Settles O14: the mask is all ones in the one case and zero in the other. -/
theorem fullyFixedMatchesOneWordAndFullyVariableMatchesAll :
    Obligations.FullyFixedMatchesOneWordAndFullyVariableMatchesAll := by
  intro p d hd
  have hwithin := (descriptorOk_of_compile hd).within
  obtain ⟨hwf, rfl⟩ := (compile_eq_ok_iff p d).1 hd
  have hlen : p.template.length = 32 := ((wellFormed_iff _).1 hwf).1
  refine ⟨fun hlit w => ?_, fun hvar => ?_⟩
  · have hones : (descriptorOf p).mask = BitVec.allOnes 32 := maskOf_of_literals hlen hlit
    rw [matchesWord, hones, BitVec.and_allOnes]
  · have hzero : (descriptorOf p).mask = 0#32 := maskOf_of_placeholders hlen hvar
    rw [hzero] at hwithin
    refine ⟨by rw [hzero]; rfl, fun w => ?_⟩
    rw [matchesWord, hzero, ← hwithin, BitVec.and_zero, BitVec.zero_and]

end Sys2Proof.Machine
end

section
/-! Operand fields (rules R61, R95): what gathering the bits of a field gives, and that spreading it
over the positions of its class puts the bits back. -/

namespace Sys2Proof.Machine

/-- The gathered bits of a list are those of its head, at the top, and those of its tail. -/
theorem gatherBits_cons (w : Word) (b : Nat) (ps : List Nat) :
    gatherBits w (b :: ps) = (w.getLsbD b).toNat * 2 ^ ps.length + gatherBits w ps := by
  induction ps using List.reverseRecOn with
  | nil => simp [gatherBits]
  | append_singleton ps b' ih =>
    rw [← List.cons_append, gatherBits_append, ih, gatherBits_append, List.length_append,
      List.length_singleton, pow_succ]
    ring

/-- The gathered bits fit the number of positions (rule R61). -/
theorem gatherBits_lt (w : Word) (ps : List Nat) : gatherBits w ps < 2 ^ ps.length := by
  induction ps with
  | nil => simp [gatherBits]
  | cons b ps ih =>
    have hbit := Bool.toNat_le (w.getLsbD b)
    rw [gatherBits_cons, List.length_cons, pow_succ]
    nlinarith

/-- The gathered bits as a sum, the first position most significant (rule R61). -/
theorem gatherBits_eq_sum (w : Word) (ps : List Nat) :
    gatherBits w ps =
      ∑ j : Fin ps.length, (w.getLsbD ps[j]).toNat * 2 ^ (ps.length - 1 - j) := by
  induction ps with
  | nil => simp [gatherBits]
  | cons b ps ih =>
    rw [gatherBits_cons, ih]
    simp only [List.length_cons]
    rw [Fin.sum_univ_succ]
    have hexp : ∀ j : ℕ, ps.length + 1 - 1 - (j + 1) = ps.length - 1 - j := by omega
    simp only [Fin.val_succ, hexp]
    rfl

/-- The bits of adjacent positions, gathered from the top, are a slice of the word (rule R61). -/
theorem gatherBits_range (w : Word) (n lo : Nat) :
    gatherBits w ((List.range n).map fun j => lo + n - 1 - j) = (w.extractLsb' lo n).toNat := by
  induction n generalizing lo with
  | zero => simp [gatherBits]
  | succ n ih =>
    have hlist : (List.range (n + 1)).map (fun j => lo + (n + 1) - 1 - j) =
        (List.range n).map (fun j => lo + 1 + n - 1 - j) ++ [lo] := by
      rw [List.range_succ, List.map_append]
      congr 1
      · refine List.map_congr_left fun j hj => by omega
      · simp
    have hbit : (w.getLsbD lo).toNat = w.toNat >>> lo % 2 := by
      rw [BitVec.getLsbD, Nat.toNat_testBit, Nat.shiftRight_eq_div_pow]
    rw [hlist, gatherBits_append, ih, hbit, BitVec.extractLsb'_toNat, BitVec.extractLsb'_toNat,
      Nat.shiftRight_succ, pow_succ', Nat.mod_mul, Nat.add_comm]

/-- Settles O16: the sum, the slice and the bound are facts about gathering bits. -/
theorem fieldValueIsTheNumberItsBitsSpell : Obligations.FieldValueIsTheNumberItsBitsSpell := by
  refine fun t c w => ⟨gatherBits_eq_sum w _, fun hi lo hle hpos => ?_, fun hpos => ?_,
    gatherBits_lt w _⟩
  · have hlist : positions t c =
        (List.range (hi - lo + 1)).map fun j => lo + (hi - lo + 1) - 1 - j := by
      rw [hpos, show lo + (hi - lo + 1) - 1 = hi by omega]
    rw [fieldOf, hlist, gatherBits_range]
  · rw [fieldOf, hpos, gatherBits, List.foldl_nil]

/-- The bits of one position. -/
theorem getLsbD_one_position (c : Bool) (b j : Nat) (hj : j < 32) :
    (if c then 1#32 <<< b else 0).getLsbD j = (decide (j = b) && c) := by
  cases c with
  | false => simp
  | true =>
    rw [if_pos rfl, ← BitVec.twoPow_eq, BitVec.getLsbD_twoPow]
    by_cases hjb : j = b
    · subst hjb
      simp [hj]
    · simp [hjb, Ne.symm hjb]

/-- Spreading reads the low bits of the value, so a higher part does not matter: the bits gathered from
the positions are put back at them (rule R95). -/
theorem getLsbD_spreadBits_gatherBits (w : Word) (ps : List Nat) (high j : Nat) (hj : j < 32) :
    (spreadBits (high * 2 ^ ps.length + gatherBits w ps) ps).getLsbD j =
      (decide (j ∈ ps) && w.getLsbD j) := by
  induction ps generalizing high with
  | nil => simp [spreadBits]
  | cons b ps ih =>
    have hvalue : high * 2 ^ (ps.length + 1) + gatherBits w (b :: ps) =
        (2 * high + (w.getLsbD b).toNat) * 2 ^ ps.length + gatherBits w ps := by
      rw [gatherBits_cons, pow_succ]
      ring
    have hbit : Nat.testBit ((2 * high + (w.getLsbD b).toNat) * 2 ^ ps.length + gatherBits w ps)
        ps.length = w.getLsbD b := by
      rw [Nat.mul_comm, Nat.testBit_two_pow_mul_add _ (gatherBits_lt w ps)]
      cases w.getLsbD b <;> simp [Nat.testBit_zero]
    rw [List.length_cons, hvalue, spreadBits, BitVec.getLsbD_or, ih, hbit,
      getLsbD_one_position _ _ _ hj]
    by_cases hjb : j = b
    · subst hjb
      simp
    · simp [hjb]

/-- A field put back at the positions of its class gives the word's bits there (rule R95). -/
theorem getLsbD_spreadBits_fieldOf (t : Text) (c : Char) (w : Word) {j : Nat} (hj : j < 32) :
    (spreadBits (fieldOf t c w) (positions t c)).getLsbD j =
      (decide (j ∈ positions t c) && w.getLsbD j) := by
  simpa [fieldOf] using getLsbD_spreadBits_gatherBits w (positions t c) 0 j hj

/-- A word that matches is the match with its three fields put back (rule R95): each bit is fixed or
belongs to one class. -/
theorem eq_matchBits_or_scatterFields {d : BasicDescriptor} (hd : DescriptorOk d) {w : Word}
    (hw : matchesWord d w) :
    w = d.matchBits ||| scatterFields d.template (operandFields d.template w) := by
  obtain ⟨hlen, hchars⟩ := (wellFormed_iff _).1 hd.template
  refine word_ext fun i hi => ?_
  have hj : 31 - i < 32 := by omega
  have hpos : ∀ c, 31 - i ∈ positions d.template c ↔ d.template[i]? = some c := fun c => by
    rw [mem_positions_iff hlen, show 31 - (31 - i) = i by omega, and_iff_right hj]
  have hchar := (all_inAlphabet_iff _).1 hchars d.template[i] (List.getElem_mem (by omega))
  rw [← hw, hd.mask]
  simp only [operandFields, scatterFields, fieldValue, BitVec.getLsbD_or, BitVec.getLsbD_and,
    getLsbD_maskOf hlen hi, getLsbD_spreadBits_fieldOf _ _ _ hj, hpos,
    List.getElem?_eq_getElem (show i < d.template.length by omega), Option.some.injEq]
  rcases hchar with h | h | h | h | h <;> simp [h]

end Sys2Proof.Machine
end

section
/-! The decoder function (rules R93, R96 to R98, R101). A list of groups that is sorted and keyed answers
a word with the one matching entry that stands before every other, and two such lists with the same
entries are equal. Nothing here asks where the descriptors come from. -/

namespace Sys2Proof.Machine

/-- The groups as a finite map from masks to tables. -/
def tablesOf (gs : List Group) : FinMap Word (FinMap Word BasicDescriptor) :=
  gs.map fun g => (g.mask, g.table)

/-- A group's table is not empty, in canonical form, and each entry lies under its own mask and match
(rules R25, R26 (b)). -/
structure TableKeyed (g : Group) : Prop where
  nonempty : g.table ≠ []
  canonical : mapCanonical wordLt g.table
  entries : ∀ e ∈ g.table, e.2.mask = g.mask ∧ e.2.matchBits = e.1

/-- The groups are in strict priority order and each is keyed: rule R26 for descriptors of any origin. -/
structure Keyed (tie : TieOrder) (gs : List Group) : Prop where
  canonical : mapCanonical (before tie) (tablesOf gs)
  each : ∀ g ∈ gs, TableKeyed g

/-- The priority order of the groups is the key order of their map. -/
theorem mapCanonical_tablesOf_iff (tie : TieOrder) (gs : List Group) :
    mapCanonical (before tie) (tablesOf gs) ↔
      gs.Pairwise fun g h => before tie g.mask h.mask = true := by
  rw [mapCanonical, tablesOf, List.pairwise_map]

/-- The groups of the invariant are sorted and keyed. -/
theorem GroupsOk.keyed {tie : TieOrder} {gs : List Group} (h : GroupsOk tie gs) : Keyed tie gs where
  canonical := (mapCanonical_tablesOf_iff tie gs).2 h.sorted
  each g hg :=
    { nonempty := (h.each g hg).nonempty
      canonical := (h.each g hg).canonical
      entries := fun e he =>
        ⟨((h.each g hg).entries e he).1, ((h.each g hg).entries e he).2.1⟩ }

/-- Reading the map of the groups is finding a group. -/
theorem mapGet_tablesOf (gs : List Group) (m : Word) :
    mapGet (tablesOf gs) m = (findGroup gs m).map Group.table := by
  induction gs with
  | nil => rfl
  | cons g rest ih =>
    rw [findGroup_cons, tablesOf, List.map_cons, mapGet_cons]
    split_ifs
    · rfl
    · exact ih

/-- The map of the groups determines them. -/
theorem tablesOf_injective : Function.Injective tablesOf :=
  List.map_injective_iff.2 fun g h hgh => by
    cases g
    cases h
    simpa using hgh

/-- The decoder's entry under a (mask, match) pair, read off the map of the groups. -/
theorem entryAt_eq_bind (gs : List Group) (m k : Word) :
    entryAt gs m k = (mapGet (tablesOf gs) m).bind fun table => mapGet table k := by
  rw [mapGet_tablesOf, entryAt]
  cases findGroup gs m <;> rfl

section
variable {tie : TieOrder} {gs : List Group}

/-- In sorted groups each group is the one found under its mask. -/
theorem mapGet_tablesOf_of_mem (h : Keyed tie gs) {g : Group} (hg : g ∈ gs) :
    mapGet (tablesOf gs) g.mask = some g.table :=
  mapGet_of_mem (before_strictTotal tie) h.canonical (List.mem_map_of_mem hg)

/-- What the decoder holds under a (mask, match) pair is what the group of that mask holds. -/
theorem entryAt_of_mem (h : Keyed tie gs) {g : Group} (hg : g ∈ gs) (k : Word) :
    entryAt gs g.mask k = mapGet g.table k := by
  rw [entryAt_eq_bind, mapGet_tablesOf_of_mem h hg, Option.bind_some]

/-- An entry found in a group has the group's mask, and its match is its key. -/
theorem TableKeyed.of_mapGet {g : Group} (h : TableKeyed g) {k : Word} {d : BasicDescriptor}
    (hd : mapGet g.table k = some d) : d.mask = g.mask ∧ d.matchBits = k :=
  h.entries _ (mem_of_mapGet hd)

/-- The entries that match a word are what the groups hold under the masked word (rule R96). -/
theorem isEntry_and_matchesWord_iff (h : Keyed tie gs) (d : BasicDescriptor) (w : Word) :
    isEntry gs d ∧ matchesWord d w ↔ ∃ g ∈ gs, mapGet g.table (w &&& g.mask) = some d := by
  constructor
  · rintro ⟨⟨g, hg, k, hk⟩, hw⟩
    obtain ⟨hmask, hmatch⟩ := (h.each g hg).entries _ hk
    refine ⟨g, hg, ?_⟩
    rw [← hmask, hw, hmatch]
    exact mapGet_of_mem wordLt_strictTotal (h.each g hg).canonical hk
  · rintro ⟨g, hg, hd⟩
    obtain ⟨hmask, hmatch⟩ := (h.each g hg).of_mapGet hd
    exact ⟨⟨g, hg, _, mem_of_mapGet hd⟩, by rw [matchesWord, hmask, hmatch]⟩

/-- What the decoder holds under a pattern is an entry of that pattern. -/
theorem isEntry_of_entryAt (h : Keyed tie gs) {m k : Word} {d : BasicDescriptor}
    (hd : entryAt gs m k = some d) : isEntry gs d ∧ d.mask = m ∧ d.matchBits = k := by
  rw [entryAt] at hd
  cases hf : findGroup gs m with
  | none => simp [hf] at hd
  | some g =>
    obtain ⟨hg, rfl⟩ := mem_of_findGroup hf
    have hget : mapGet g.table k = some d := by simpa [hf] using hd
    exact ⟨⟨g, hg, _, mem_of_mapGet hget⟩, (h.each g hg).of_mapGet hget⟩

/-- An entry is what the decoder holds under the entry's own pattern. -/
theorem isEntry_iff_entryAt (h : Keyed tie gs) (d : BasicDescriptor) :
    isEntry gs d ↔ entryAt gs d.mask d.matchBits = some d := by
  refine ⟨fun ⟨g, hg, k, hk⟩ => ?_, fun hd => (isEntry_of_entryAt h hd).1⟩
  obtain ⟨hmask, hmatch⟩ := (h.each g hg).entries _ hk
  rw [hmask, hmatch, entryAt_of_mem h hg]
  exact mapGet_of_mem wordLt_strictTotal (h.each g hg).canonical hk

/-- `d` is the matching entry that stands before every other matching entry (rule R96). -/
def FirstMatch (tie : TieOrder) (gs : List Group) (w : Word) (d : BasicDescriptor) : Prop :=
  isEntry gs d ∧ matchesWord d w ∧
    ∀ d', isEntry gs d' → matchesWord d' w → d' ≠ d → before tie d.mask d'.mask = true

/-- What the search gives is the first match (rule R96, soundness). -/
theorem firstMatch_of_decodeWord (h : Keyed tie gs) {w : Word} {d : BasicDescriptor}
    (hd : decodeWord gs w = some d) : FirstMatch tie gs w d := by
  obtain ⟨front, g, back, rfl, hfront, hg⟩ := decodeWord_eq_some hd
  have hmem : g ∈ front ++ g :: back := by simp
  obtain ⟨hentry, hw⟩ := (isEntry_and_matchesWord_iff h d w).2 ⟨g, hmem, hg⟩
  refine ⟨hentry, hw, fun d' hentry' hw' hne => ?_⟩
  obtain ⟨g', hg', hd'⟩ := (isEntry_and_matchesWord_iff h d' w).1 ⟨hentry', hw'⟩
  rw [((h.each g hmem).of_mapGet hg).1, ((h.each g' hg').of_mapGet hd').1]
  rcases List.mem_append.1 hg' with hin | hin
  · cases (hfront g' hin).symm.trans hd'
  · rcases List.mem_cons.1 hin with rfl | hin
    · exact absurd (Option.some.inj (hd'.symm.trans hg)) hne
    · have hsorted := (mapCanonical_tablesOf_iff tie _).1 h.canonical
      exact (List.pairwise_cons.1 (List.pairwise_append.1 hsorted).2.1).1 g' hin

/-- The search gives nothing exactly when no entry matches (rule R96, completeness). -/
theorem decodeWord_eq_none_iff_no_match (h : Keyed tie gs) (w : Word) :
    decodeWord gs w = none ↔ ∀ d, isEntry gs d → ¬ matchesWord d w := by
  rw [decodeWord_eq_none_iff]
  constructor
  · intro hnone d hentry hw
    obtain ⟨g, hg, hd⟩ := (isEntry_and_matchesWord_iff h d w).1 ⟨hentry, hw⟩
    cases (hnone g hg).symm.trans hd
  · intro hno g hg
    cases hd : mapGet g.table (w &&& g.mask) with
    | none => rfl
    | some d =>
      obtain ⟨hentry, hw⟩ := (isEntry_and_matchesWord_iff h d w).2 ⟨g, hg, hd⟩
      exact absurd hw (hno d hentry)

/-- Where an entry matches, the search gives one (rule R96). -/
theorem exists_decodeWord_of_match (h : Keyed tie gs) {w : Word} {d : BasicDescriptor}
    (hentry : isEntry gs d) (hw : matchesWord d w) : ∃ d', decodeWord gs w = some d' := by
  cases hd : decodeWord gs w with
  | none => exact absurd hw ((decodeWord_eq_none_iff_no_match h w).1 hd d hentry)
  | some d' => exact ⟨d', rfl⟩

/-- The search gives a descriptor exactly when it is the first match (rule R96). -/
theorem decodeWord_eq_some_iff (h : Keyed tie gs) (w : Word) (d : BasicDescriptor) :
    decodeWord gs w = some d ↔ FirstMatch tie gs w d := by
  refine ⟨firstMatch_of_decodeWord h, fun ⟨hentry, hw, hfirst⟩ => ?_⟩
  obtain ⟨d', hd'⟩ := exists_decodeWord_of_match h hentry hw
  obtain ⟨hentry', hw', hfirst'⟩ := firstMatch_of_decodeWord h hd'
  by_cases hne : d' = d
  · rw [hd', hne]
  · have hbefore := hfirst d' hentry' hw' hne
    have hafter := (before_strictTotal tie).asymm (hfirst' d hentry hw (Ne.symm hne))
    cases hafter.symm.trans hbefore

end

/-- Settles O21: DEC.DECODE answers what the search gives, and that is the first match. -/
theorem decodeGivesTheMatchingEntryOfHighestPriority :
    Obligations.DecodeGivesTheMatchingEntryOfHighestPriority := by
  intro s w hinv
  have hk := hinv.groups.keyed
  refine ⟨fun d hentry hw hfirst => ?_, fun hno => ?_, fun ⟨d, hentry, hw⟩ => ?_⟩
  · exact exec_decDecode_of_some ((decodeWord_eq_some_iff hk w d).2 ⟨hentry, hw, hfirst⟩)
  · exact exec_decDecode_of_none ((decodeWord_eq_none_iff_no_match hk w).2 hno)
  · obtain ⟨d', hd'⟩ := exists_decodeWord_of_match hk hentry hw
    exact ⟨d', firstMatch_of_decodeWord hk hd'⟩

/-- A group before another has at least as many fixed bits (rule R90). -/
theorem popcount_le_of_before {tie : TieOrder} {a b : Word} (h : before tie a b = true) :
    popcount b ≤ popcount a := by
  rcases (before_iff tie a b).1 h with hlt | ⟨heq, -⟩
  · exact hlt.le
  · exact heq.ge

/-- The answer has at least as many fixed bits as any entry that matches (rule R98). -/
theorem popcount_le_of_decodeWord {tie : TieOrder} {gs : List Group} (h : Keyed tie gs) {w : Word}
    {d d' : BasicDescriptor} (hd' : decodeWord gs w = some d') (hentry : isEntry gs d)
    (hw : matchesWord d w) : popcount d.mask ≤ popcount d'.mask := by
  obtain ⟨-, -, hfirst⟩ := firstMatch_of_decodeWord h hd'
  by_cases hne : d = d'
  · rw [hne]
  · exact popcount_le_of_before (hfirst d hentry hw hne)

/-- Settles O22: the answer has at least as many fixed bits as the first of the two entries. -/
theorem theMoreSpecificPatternWins : Obligations.TheMoreSpecificPatternWins := by
  intro s w d₁ d₂ hinv h₁ h₂ hw₁ hw₂ hlt
  have hk := hinv.groups.keyed
  have hne : decodeWord s.blk.groups w ≠ some d₂ := fun hd =>
    absurd (popcount_le_of_decodeWord hk hd h₁ hw₁) (by omega)
  refine ⟨hne, fun honly => ?_⟩
  obtain ⟨d, hd⟩ := exists_decodeWord_of_match hk h₁ hw₁
  obtain ⟨hentry, hw, -⟩ := firstMatch_of_decodeWord hk hd
  rcases honly d hentry hw with rfl | rfl
  · exact hd
  · exact absurd hd hne

/-- Settles O25: the pattern of a registered descriptor is in the decoder, so an entry matches. -/
theorem wordsOfARegisteredDescriptorAlwaysDecode :
    Obligations.WordsOfARegisteredDescriptorAlwaysDecode := by
  intro s d v hinv hd
  have hk := hinv.groups.keyed
  have hwd := matchesWord_or_variable (hinv.registry.descriptors d hd).within v
  obtain ⟨first, hfirst⟩ := Option.isSome_iff_exists.1 (hinv.registry.patterns d hd)
  obtain ⟨hentry, hmask, hmatch⟩ := isEntry_of_entryAt hk hfirst
  have hw : matchesWord first (d.matchBits ||| (v &&& ~~~ d.mask)) := by
    rwa [matchesWord, hmask, hmatch]
  obtain ⟨d', hd'⟩ := exists_decodeWord_of_match hk hentry hw
  refine ⟨d', hd', (firstMatch_of_decodeWord hk hd').2.1, ?_⟩
  rw [← hmask]
  exact popcount_le_of_decodeWord hk hd' hentry hw

/-- Settles O18: DEC.OPERANDS answers from the search of DEC.DECODE, whose answer is a matching entry. -/
theorem operandsAreTheThreeFieldsOfTheDecodedWord :
    Obligations.OperandsAreTheThreeFieldsOfTheDecodedWord := by
  refine fun s w => ⟨fun front back g d hgs hfront hg => ?_, fun hnone => ?_⟩
  · have hd : decodeWord s.blk.groups w = some d := by rw [hgs, decodeWord_append hfront hg]
    refine ⟨exec_decOperands_of_some hd, fun hinv => ?_⟩
    obtain ⟨⟨g', hg', k, hk⟩, hw, -⟩ := firstMatch_of_decodeWord hinv.groups.keyed hd
    exact eq_matchBits_or_scatterFields ((hinv.groups.each g' hg').entries _ hk).2.2 hw
  · exact exec_decOperands_of_none ((decodeWord_eq_none_iff _ _).2 hnone)

/-! ### The decoder of a list of descriptors -/

/-- Entering a group of a new mask is a write to the map of the groups. -/
theorem tablesOf_insertGroup (tie : TieOrder) (g : Group) {gs : List Group}
    (hnew : findGroup gs g.mask = none) :
    tablesOf (insertGroup tie g gs) = mapSet (before tie) (tablesOf gs) g.mask g.table := by
  induction gs with
  | nil => rfl
  | cons x rest ih =>
    rw [findGroup_cons] at hnew
    split_ifs at hnew with hne
    have hord := (before_strictTotal tie).eq_not (Ne.symm hne)
    rw [insertGroup, show tablesOf (x :: rest) = (x.mask, x.table) :: tablesOf rest from rfl, mapSet,
      if_neg hne, hord]
    cases before tie x.mask g.mask with
    | true => exact congrArg ((x.mask, x.table) :: ·) (ih hnew)
    | false => rfl

/-- A group with one more entry is keyed. -/
theorem tableKeyed_mapSet {g : Group} (hg : TableKeyed g) {d : BasicDescriptor}
    (hm : d.mask = g.mask) :
    TableKeyed { g with table := mapSet wordLt g.table d.matchBits d } where
  nonempty := mapSet_ne_nil _ _ _ _
  canonical := mapCanonical_mapSet wordLt_strictTotal hg.canonical _ _
  entries e he := by
    rcases mem_mapSet he with rfl | he
    · exact ⟨hm, rfl⟩
    · exact hg.entries e he

/-- A group of one entry is keyed. -/
theorem tableKeyed_singleton (d : BasicDescriptor) : TableKeyed ⟨d.mask, [(d.matchBits, d)]⟩ where
  nonempty := by simp
  canonical := List.pairwise_singleton _ _
  entries := by simp

/-- Entering a pattern keeps the groups sorted and keyed. -/
theorem keyed_enterPattern {tie : TieOrder} {gs : List Group} (h : Keyed tie gs)
    (d : BasicDescriptor) : Keyed tie (enterPattern tie d gs) := by
  unfold enterPattern
  cases hf : findGroup gs d.mask with
  | none =>
    refine ⟨?_, fun x hx => ?_⟩
    · rw [tablesOf_insertGroup tie _ hf]
      exact mapCanonical_mapSet (before_strictTotal tie) h.canonical _ _
    · obtain ⟨front, back, rfl, hins, -⟩ := insertGroup_split tie ⟨d.mask, [(d.matchBits, d)]⟩ gs
      have hx' : x ∈ ⟨d.mask, [(d.matchBits, d)]⟩ :: (front ++ back) :=
        List.perm_middle.mem_iff.1 (hins ▸ hx)
      rcases List.mem_cons.1 hx' with rfl | hx'
      · exact tableKeyed_singleton d
      · exact h.each x hx'
  | some g =>
    obtain ⟨hg, hmask⟩ := mem_of_findGroup hf
    refine ⟨?_, fun x hx => ?_⟩
    · have hsorted := (mapCanonical_tablesOf_iff tie gs).1 h.canonical
      rw [mapCanonical_tablesOf_iff, ← List.pairwise_map (f := Group.mask)
        (R := fun a b => before tie a b = true), map_mask_replaceGroup]
      exact List.pairwise_map.2 hsorted
    · rcases mem_replaceGroup hx with rfl | hx
      · exact tableKeyed_mapSet (h.each g hg) hmask.symm
      · exact h.each x hx

/-- Whether a descriptor has the pattern (m, k). -/
def hasPattern (m k : Word) (d : BasicDescriptor) : Bool :=
  d.mask == m && d.matchBits == k

@[simp] theorem hasPattern_iff (m k : Word) (d : BasicDescriptor) :
    hasPattern m k d = true ↔ m = d.mask ∧ k = d.matchBits := by
  rw [hasPattern, Bool.and_eq_true, beq_iff_eq, beq_iff_eq, eq_comm, @eq_comm _ d.matchBits]

/-- The groups after adding a list of descriptors to those of a block. -/
def groupsAfter (tie : TieOrder) (b : Block) (ds : List BasicDescriptor) : List Group :=
  (ds.foldl (fun b d => (decAdd tie d b).2) b).groups

theorem groupsAfter_cons (tie : TieOrder) (b : Block) (d : BasicDescriptor)
    (ds : List BasicDescriptor) :
    groupsAfter tie b (d :: ds) = groupsAfter tie (decAdd tie d b).2 ds :=
  rfl

/-- Adding descriptors keeps the groups sorted and keyed. -/
theorem keyed_groupsAfter (tie : TieOrder) (ds : List BasicDescriptor) (b : Block)
    (h : Keyed tie b.groups) : Keyed tie (groupsAfter tie b ds) := by
  induction ds generalizing b with
  | nil => exact h
  | cons d ds ih =>
    rw [groupsAfter_cons]
    rcases decAdd_cases tie d b with ⟨-, hadd⟩ | ⟨first, -, hadd⟩ <;> rw [hadd]
    · exact ih _ (keyed_enterPattern h d)
    · exact ih _ h

/-- What the decoder holds under a pattern after one more descriptor was added: what it held, else the
descriptor if it has the pattern (rule R91). -/
theorem entryAt_decAdd (tie : TieOrder) (d : BasicDescriptor) (b : Block) (m k : Word) :
    entryAt (decAdd tie d b).2.groups m k =
      (entryAt b.groups m k).or (if hasPattern m k d then some d else none) := by
  by_cases hp : m = d.mask ∧ k = d.matchBits
  · obtain ⟨rfl, rfl⟩ := hp
    rcases decAdd_cases tie d b with ⟨hnew, hadd⟩ | ⟨first, hold, hadd⟩
    · simp [hadd, hnew, entryAt_enterPattern]
    · simp [hadd, hold]
  · rw [if_neg (mt (hasPattern_iff m k d).1 hp), Option.or_none]
    rcases decAdd_cases tie d b with ⟨-, hadd⟩ | ⟨first, -, hadd⟩
    · rw [hadd, entryAt_enterPattern, if_neg hp]
    · rw [hadd, addDiag_groups]

/-- Of the descriptors of one pattern, the first one added is held (rule R91). -/
theorem entryAt_groupsAfter (tie : TieOrder) (ds : List BasicDescriptor) (b : Block) (m k : Word) :
    entryAt (groupsAfter tie b ds) m k =
      (entryAt b.groups m k).or (ds.find? (hasPattern m k)) := by
  induction ds generalizing b with
  | nil => exact Option.or_none.symm
  | cons d ds ih =>
    rw [groupsAfter_cons, ih, entryAt_decAdd, Option.or_assoc, List.find?_cons]
    cases hasPattern m k d <;> rfl

/-- The groups of a decoder are sorted and keyed. -/
theorem keyed_decoderOf (tie : TieOrder) (ds : List BasicDescriptor) :
    Keyed tie (decoderOf tie ds) :=
  keyed_groupsAfter tie ds Block.reset (blockInv_reset tie).groups.keyed

/-- A decoder holds the first descriptor of each pattern, whatever the tie order (rule R91). -/
theorem entryAt_decoderOf (tie : TieOrder) (ds : List BasicDescriptor) (m k : Word) :
    entryAt (decoderOf tie ds) m k = ds.find? (hasPattern m k) :=
  entryAt_groupsAfter tie ds Block.reset m k

/-- The entries of a decoder do not depend on the tie order. -/
theorem isEntry_decoderOf_iff (tie tie' : TieOrder) (ds : List BasicDescriptor)
    (d : BasicDescriptor) : isEntry (decoderOf tie ds) d ↔ isEntry (decoderOf tie' ds) d := by
  rw [isEntry_iff_entryAt (keyed_decoderOf tie ds), isEntry_iff_entryAt (keyed_decoderOf tie' ds),
    entryAt_decoderOf, entryAt_decoderOf]

/-- Two entries that match one word are compatible (rule R97). -/
theorem compatible_of_matchesWord {d d' : BasicDescriptor} {w : Word} (h : matchesWord d w)
    (h' : matchesWord d' w) : compatible d d' := by
  rw [compatible, ← h, ← h']
  refine BitVec.eq_of_getLsbD_eq fun i _ => ?_
  simp only [BitVec.getLsbD_and, BitVec.getLsbD_xor]
  cases d.mask.getLsbD i with
  | false => simp
  | true =>
    cases d'.mask.getLsbD i with
    | false => simp
    | true => simp

/-- In a tie-free decoder, of two entries that match one word the one that stands before has more fixed
bits, so it stands before under every tie order (rule R97). -/
theorem before_of_tieFree {tie tie' : TieOrder} {gs : List Group} (hk : Keyed tie gs)
    (hfree : tieFree gs) {d d' : BasicDescriptor} {w : Word} (hd : isEntry gs d)
    (hd' : isEntry gs d') (hw : matchesWord d w) (hw' : matchesWord d' w)
    (hbefore : before tie d.mask d'.mask = true) : before tie' d.mask d'.mask = true := by
  obtain ⟨g, hg, k, hin⟩ := hd
  obtain ⟨g', hg', k', hin'⟩ := hd'
  have hmask := ((hk.each g hg).entries _ hin).1
  have hmask' := ((hk.each g' hg').entries _ hin').1
  rcases (before_iff tie _ _).1 hbefore with hlt | ⟨heq, -⟩
  · exact (before_iff tie' _ _).2 (.inl hlt)
  · have hne : d.mask ≠ d'.mask := (before_strictTotal tie).ne hbefore
    rw [hmask, hmask'] at hne heq
    exact absurd (compatible_of_matchesWord hw hw')
      (hfree g hg g' hg' hne heq _ hin _ hin')

/-- Settles O23: the entries are the same under both tie orders, and so is the first match. -/
theorem tieOrderIsUnobservableWhenTieFree : Obligations.TieOrderIsUnobservableWhenTieFree := by
  intro ds tie tie' hfree w
  have hk := keyed_decoderOf tie ds
  have hk' := keyed_decoderOf tie' ds
  have hsame := isEntry_decoderOf_iff tie tie' ds
  cases hd : decodeWord (decoderOf tie ds) w with
  | none =>
    refine ((decodeWord_eq_none_iff_no_match hk' w).2 fun d hentry => ?_).symm
    exact (decodeWord_eq_none_iff_no_match hk w).1 hd d ((hsame d).2 hentry)
  | some d =>
    obtain ⟨hentry, hw, hfirst⟩ := firstMatch_of_decodeWord hk hd
    refine ((decodeWord_eq_some_iff hk' w d).2 ⟨(hsame d).1 hentry, hw, fun d' h' hw' hne => ?_⟩).symm
    have hentry' := (hsame d').2 h'
    exact before_of_tieFree hk hfree hentry hentry' hw hw' (hfirst d' hentry' hw' hne)

/-- A group found is keyed, so its table is determined by its reads and is not empty. -/
theorem tableKeyed_of_mapGet {tie : TieOrder} {gs : List Group} (h : Keyed tie gs) {m : Word}
    {table : FinMap Word BasicDescriptor} (ht : mapGet (tablesOf gs) m = some table) :
    TableKeyed ⟨m, table⟩ := by
  obtain ⟨g, hg, heq⟩ := List.mem_map.1 (mem_of_mapGet ht)
  cases heq
  exact h.each g hg

/-- A mask has a group exactly when some pattern of that mask has an entry. -/
theorem mapGet_tablesOf_eq_none_iff {tie : TieOrder} {gs : List Group} (h : Keyed tie gs) (m : Word) :
    mapGet (tablesOf gs) m = none ↔ ∀ k, entryAt gs m k = none := by
  constructor
  · intro hnone k
    rw [entryAt_eq_bind, hnone, Option.bind_none]
  · intro hno
    cases ht : mapGet (tablesOf gs) m with
    | none => rfl
    | some table =>
      have hkeyed := tableKeyed_of_mapGet h ht
      obtain ⟨⟨k, d⟩, hin⟩ := List.exists_mem_of_ne_nil _ hkeyed.nonempty
      have hread := mapGet_of_mem wordLt_strictTotal hkeyed.canonical hin
      have hentry := hno k
      rw [entryAt_eq_bind, ht, Option.bind_some] at hentry
      cases hentry.symm.trans hread

/-- Sorted and keyed groups are determined by their entries. -/
theorem keyed_ext {tie : TieOrder} {gs gs' : List Group} (h : Keyed tie gs) (h' : Keyed tie gs')
    (hsame : ∀ m k, entryAt gs m k = entryAt gs' m k) : gs = gs' := by
  refine tablesOf_injective
    (map_ext (before_strictTotal tie) h.canonical h'.canonical fun m => ?_)
  have hnone : mapGet (tablesOf gs) m = none ↔ mapGet (tablesOf gs') m = none := by
    rw [mapGet_tablesOf_eq_none_iff h, mapGet_tablesOf_eq_none_iff h']
    simp only [hsame]
  cases ht : mapGet (tablesOf gs) m with
  | none => exact (hnone.1 ht).symm
  | some table =>
    cases ht' : mapGet (tablesOf gs') m with
    | none => cases ht.symm.trans (hnone.2 ht')
    | some table' =>
      refine congrArg some (map_ext wordLt_strictTotal (tableKeyed_of_mapGet h ht).canonical
        (tableKeyed_of_mapGet h' ht').canonical fun k => ?_)
      simpa [entryAt_eq_bind, ht, ht'] using hsame m k

/-- Among descriptors of distinct patterns, the one found is the one of the pattern. -/
theorem find?_hasPattern_eq_some_iff {ds : List BasicDescriptor}
    (hnodup : (ds.map fun d => (d.mask, d.matchBits)).Nodup) (m k : Word) (d : BasicDescriptor) :
    ds.find? (hasPattern m k) = some d ↔ d ∈ ds ∧ hasPattern m k d = true := by
  refine ⟨fun h => ⟨List.mem_of_find?_eq_some h, List.find?_some h⟩, fun ⟨hmem, hpat⟩ => ?_⟩
  cases hf : ds.find? (hasPattern m k) with
  | none => exact absurd hpat (List.find?_eq_none.1 hf d hmem)
  | some x =>
    obtain ⟨rfl, rfl⟩ := (hasPattern_iff m k x).1 (List.find?_some hf)
    obtain ⟨hmask, hmatch⟩ := (hasPattern_iff _ _ d).1 hpat
    have hx := List.mem_of_find?_eq_some hf
    exact congrArg some (List.inj_on_of_nodup_map hnodup hx hmem (by rw [hmask, hmatch]))

/-- Settles O24: each decoder holds, under each pattern, the one descriptor of that pattern. -/
theorem decoderIsIndependentOfInsertionOrder :
    Obligations.DecoderIsIndependentOfInsertionOrder := by
  intro tie ds ds' hperm hnodup
  have hnodup' := (hperm.map fun d => (d.mask, d.matchBits)).nodup_iff.1 hnodup
  refine keyed_ext (keyed_decoderOf tie ds) (keyed_decoderOf tie ds') fun m k => ?_
  rw [entryAt_decoderOf, entryAt_decoderOf]
  ext d
  rw [find?_hasPattern_eq_some_iff hnodup, find?_hasPattern_eq_some_iff hnodup', hperm.mem_iff]

end Sys2Proof.Machine
end

section
/-! Loose resolution, the search by beginning, the enumerations and the expansion texts (rules R13, R133
to R138). -/

namespace Sys2Proof.Machine

/-- Loose mode accepts what strict mode accepts (rule R12). -/
theorem acceptsLoose_of_accepts {P : Params} {a b : OperandType} (h : P.accepts a b = true) :
    P.acceptsLoose a b = true := by
  rw [Params.acceptsLoose, h, Bool.true_or]

/-- Settles O32, from the two ends of the scan under `acceptsLoose`. -/
theorem looseResolveKeepsTheArityAndAsksTheLooserPredicate :
    Obligations.LooseResolveKeepsTheArityAndAsksTheLooserPredicate := by
  refine fun m given s => ⟨fun ds d hds hd => ?_, fun ds hds hnone => ?_, fun hm => ?_,
    fun _ _ => acceptsLoose_of_accepts⟩
  · exact resolveBy_of_firstAccepting (by rwa [mapGetD_of_mapGet_eq_some hds])
  · exact resolveBy_of_noneAccepting (by rwa [mapGetD_of_mapGet_eq_some hds])
  · exact resolveBy_of_noneAccepting (by simp [mapGetD_of_mapGet_eq_none hm, noneAccepting])

/-- A signature accepted is accepted by every weaker test, with the same arity (rule R130). -/
theorem sigAccepts_mono {accepts accepts' : OperandType → OperandType → Bool}
    (h : ∀ a b, accepts a b = true → accepts' a b = true) {sig given : List OperandType}
    (hs : sigAccepts accepts sig given = true) : sigAccepts accepts' sig given = true :=
  (sigAccepts_iff _ _ _).2 (((sigAccepts_iff _ _ _).1 hs).imp h)

/-- A weaker test finds a member no later. -/
theorem exists_find?_of_imp {α : Type} [DecidableEq α] {p q : α → Bool}
    (hpq : ∀ x, p x = true → q x = true) {l : List α} {d : α} (h : l.find? p = some d) :
    ∃ d', l.find? q = some d' ∧ l.idxOf d' ≤ l.idxOf d := by
  induction l with
  | nil => cases h
  | cons x xs ih =>
    cases hq : q x with
    | true => exact ⟨x, List.find?_cons_of_pos hq, by simp⟩
    | false =>
      have hp : p x = false := Bool.eq_false_iff.2 fun hp => Bool.false_ne_true (hq ▸ hpq x hp)
      rw [List.find?_cons_of_neg (by simp [hp])] at h
      obtain ⟨d', hd', hle⟩ := ih h
      have hd : x ≠ d := by
        rintro rfl
        exact Bool.false_ne_true (hp.symm.trans (List.find?_some h))
      have hne : x ≠ d' := by
        rintro rfl
        exact Bool.false_ne_true (hq.symm.trans (List.find?_some hd'))
      refine ⟨d', by rwa [List.find?_cons_of_neg (by simp [hq])], ?_⟩
      rw [List.idxOf_cons_ne _ hd, List.idxOf_cons_ne _ hne]
      omega

/-- A resolution answers `OK` with a descriptor exactly when it finds it (rule R132). -/
theorem resolveBy_eq_ok_iff {accepts : OperandType → OperandType → Bool} {m : Text}
    {given : List OperandType} {s : State} {d : Descriptor} :
    resolveBy accepts m given s = respond s .ok (.descriptor d) ↔
      resolveWith accepts m given s.blk = some d := by
  refine ⟨fun h => ?_, resolveBy_of_some⟩
  cases hr : resolveWith accepts m given s.blk with
  | none => cases (resolveBy_of_none hr).symm.trans h
  | some d' =>
    cases (resolveBy_of_some hr).symm.trans h
    rfl

/-- Settles O33: both modes scan the registry, and the looser test finds a member no later. -/
theorem looseModeFindsAnOverloadNoLaterThanStrict :
    Obligations.LooseModeFindsAnOverloadNoLaterThanStrict := by
  intro m given s d hinv hstrict
  have hd := resolveBy_eq_ok_iff.1 hstrict
  rw [resolveWith_eq_find? hinv.registry] at hd
  have hloose : ∀ x, (mnemonicOf x == m && sigAccepts Config.params.accepts (signatureOf x) given) =
        true →
      (mnemonicOf x == m && sigAccepts Config.params.acceptsLoose (signatureOf x) given) = true :=
    fun x hx => by
      rw [Bool.and_eq_true] at hx ⊢
      exact hx.imp_right (sigAccepts_mono fun _ _ => acceptsLoose_of_accepts)
  obtain ⟨d', hd', hle⟩ := exists_find?_of_imp hloose hd
  rw [← resolveWith_eq_find? hinv.registry] at hd'
  exact ⟨d', resolveBy_of_some hd', hle⟩

/-- The folding, written with the letters (rule R18). -/
theorem foldCase_eq (c : Char) :
    foldCase c =
      if 'A'.toNat ≤ c.toNat ∧ c.toNat ≤ 'Z'.toNat then
        Char.ofNat (c.toNat - 'A'.toNat + 'a'.toNat)
      else c := by
  have hA : 'A'.toNat = 65 := rfl
  have hZ : 'Z'.toNat = 90 := rfl
  have ha : 'a'.toNat = 97 := rfl
  rw [foldCase, hA, hZ, ha]
  split_ifs with h
  · rw [show c.toNat - 65 + 97 = c.toNat + 32 by omega]
  · rfl

/-- The search by beginning, in the terms of rule R19. -/
theorem prefixSearch_eq (p : Text) (b : Block) :
    prefixSearch p b = b.all.filter fun d => decide (p.length ≤ (mnemonicOf d).length ∧
      ∀ i < p.length, (mnemonicOf d)[i]?.map foldCase = p[i]?.map foldCase) := by
  refine List.filter_congr fun d _ => ?_
  rw [Bool.eq_iff_iff, startsWithCI_iff, decide_eq_true_iff]

/-- Every mnemonic starts with the empty text, so the search for it gives the whole list. -/
theorem prefixSearch_nil (b : Block) : prefixSearch [] b = b.all := by
  refine List.filter_eq_self.2 fun d _ => ?_
  rw [startsWithCI_iff]
  simp

/-- Settles O34, from `startsWithCI` in plain words. -/
theorem prefixSearchGivesEveryMnemonicThatStartsSo :
    Obligations.PrefixSearchGivesEveryMnemonicThatStartsSo := by
  refine ⟨foldCase_eq, fun p s => ⟨prefixSearch p s.blk, rfl, prefixSearch_eq p s.blk, ?_⟩⟩
  rintro rfl
  exact prefixSearch_nil s.blk

/-- Settles O35: each list is answered whole, and by the invariant two of them are those of the whole
registry (rule R29). -/
theorem enumerationsGiveTheStoredLists : Obligations.EnumerationsGiveTheStoredLists := by
  refine fun s => ⟨rfl, rfl, rfl, rfl, fun hinv => ?_⟩
  rw [← hinv.registry.basic, ← hinv.registry.ext]
  exact ⟨rfl, rfl⟩

/-- A text is the join of its lines (rule R13, log entry 14). -/
theorem intercalate_textLines (text : Text) : List.intercalate ['\n'] (textLines text) = text := by
  induction text with
  | nil => rfl
  | cons c cs ih =>
    obtain ⟨line, rest, h⟩ := textLines_split cs
    by_cases hc : c = '\n'
    · subst hc
      rw [textLines_newline, h, List.intercalate_cons_cons, ← h, ih]
      rfl
    · rw [textLines_char hc h]
      rw [h] at ih
      cases rest with
      | nil => simpa using ih
      | cons line' rest => simpa [List.intercalate_cons_cons] using ih

/-- Settles O44, from what `textLines` and `parseTemplate` give. -/
theorem anExpansionParsesToOneStatementPerLine :
    Obligations.AnExpansionParsesToOneStatementPerLine := by
  refine fun text => ⟨intercalate_textLines text, newline_not_mem_textLines text, fun stmts => ?_⟩
  rw [parseTemplate_eq_some_iff, length_textLines]

end Sys2Proof.Machine
end

section
/-! REG.LOADGRP (rules R118, R119): when a match is good, and what the loop over the matches leaves. -/

namespace Sys2Proof.Machine

/-- The standard expansion is good exactly when it is present and parses (rule R118). -/
theorem parseStandard_eq_some_iff {P : Params} {r : MatchRecord} {l : List Stmt} :
    parseStandard P r = some l ↔ ∃ t, r.standardText = some t ∧ parseTemplate P t = some l := by
  unfold parseStandard
  cases r.standardText <;> simp

/-- The compact expansion is good exactly when it is absent, or present and parses (rule R118). -/
theorem parseCompact_eq_some_iff {P : Params} {r : MatchRecord} {c : Option (List Stmt)} :
    parseCompact P r = some c ↔
      (r.compactText = none ∧ c = none) ∨
      ∃ t l, r.compactText = some t ∧ parseTemplate P t = some l ∧ c = some l := by
  unfold parseCompact
  cases r.compactText with
  | none => simp [eq_comm]
  | some t => cases h : parseTemplate P t <;> simp [h, eq_comm]

/-- A match gives the descriptor of its three parts exactly when all of them parse (rules R118,
R119). -/
theorem buildMatch_eq_some_iff {P : Params} {g : GroupRecord} {r : MatchRecord}
    {e : ExtendedDescriptor} :
    buildMatch P g r = some e ↔
      e.mnemonic = g.mnemonic ∧ P.parseSignature r.signature = some e.signature ∧
      parseStandard P r = some e.standardTemplate ∧ parseCompact P r = some e.compactTemplate ∧
      e.title = r.title.getD (g.defaultTitle.getD []) ∧
      e.description = r.description.getD (g.defaultDescription.getD []) := by
  unfold buildMatch
  split
  · next sig std cmp hsig hstd hcmp =>
    constructor
    · rintro ⟨⟩
      exact ⟨rfl, hsig, hstd, hcmp, rfl, rfl⟩
    · rintro ⟨hname, hsig', hstd', hcmp', htitle, hdesc⟩
      cases hsig.symm.trans hsig'
      cases hstd.symm.trans hstd'
      cases hcmp.symm.trans hcmp'
      rw [← hname, ← htitle, ← hdesc]
  · next hbad =>
    simp only [reduceCtorEq, false_iff]
    rintro ⟨-, hsig, hstd, hcmp, -⟩
    exact hbad _ _ _ hsig hstd hcmp

/-- A default after a default (rule R119). -/
theorem getD_orElse (a b : Option Text) : (a.orElse fun _ => b).getD [] = a.getD (b.getD []) := by
  cases a <;> rfl

/-- Settles O28: the loop's effect is that of `loadMatches_spec`. -/
theorem loadGroupRegistersGoodMatchesAndLogsBadOnes :
    Obligations.LoadGroupRegistersGoodMatchesAndLogsBadOnes := by
  refine fun g s => ⟨exec_published rfl, fun hs hg => ?_, ?_, fun r e => ?_⟩
  · rcases exec_regLoadgrp_build g hs with ⟨-, he⟩ | ⟨hne, -⟩
    · exact he
    · exact absurd hg hne
  · rintro es bad hs hg rfl rfl
    rcases exec_regLoadgrp_build g hs with ⟨h, -⟩ | ⟨-, acc, rfl, he⟩
    · exact absurd h hg
    · obtain ⟨hcount, hskip, mnem, hblk, hmnem⟩ :=
        loadMatches_spec Config.params g g.matchRecords 0 ⟨0, [], s.blk⟩
      rw [hcount, hskip, hblk] at he
      refine ⟨mnem, he.trans ?_, hmnem⟩
      rw [Nat.zero_add, List.nil_append]
      rfl
  · rw [buildMatch_eq_some_iff, parseStandard_eq_some_iff, parseCompact_eq_some_iff, getD_orElse,
      getD_orElse]

end Sys2Proof.Machine
end

section
/-! The boot sequence (rules R16, R160, R173): what each member of a catalogue registers, and the run
over the whole catalogue, by induction on its members. -/

namespace Sys2Proof.Machine

/-- A catalogue put basics first boots in the order of rule R173. -/
theorem bootCommands_basicsFirst (c : Catalog) :
    bootCommands c.basicsFirst =
      c.protos.map .regBasic ++ c.groups.map .regLoadgrp ++ [.regPublish] := by
  simp [bootCommands, Catalog.basicsFirst, CatalogEntry.command, Function.comp_def]

/-- `ds` is what the members of a catalogue register: everything, less some basic descriptors where
collisions are rolled back (rules R15, R110). -/
structure Registers (entries : List CatalogEntry) (ds : List Descriptor) : Prop where
  sublist : ds.Sublist (entries.flatMap (registeredBy Config.params))
  ext : ds.filterMap asExtended =
    (entries.flatMap (registeredBy Config.params)).filterMap asExtended
  kept : Config.params.collisionRollback = false →
    ds = entries.flatMap (registeredBy Config.params)

/-- Members that register everything they name. -/
theorem Registers.all (entries : List CatalogEntry) :
    Registers entries (entries.flatMap (registeredBy Config.params)) :=
  ⟨List.Sublist.refl _, rfl, fun _ => rfl⟩

/-- A member that registers all it names. -/
theorem Registers.one (x : CatalogEntry) : Registers [x] (registeredBy Config.params x) := by
  simpa using Registers.all [x]

/-- What one member and then the others register. -/
theorem Registers.cons {x : CatalogEntry} {xs : List CatalogEntry} {ds ds' : List Descriptor}
    (h : Registers [x] ds) (h' : Registers xs ds') : Registers (x :: xs) (ds ++ ds') where
  sublist := by simpa using h.sublist.append h'.sublist
  ext := by simpa using congrArg₂ (· ++ ·) h.ext h'.ext
  kept hr := by simpa using congrArg₂ (· ++ ·) (h.kept hr) (h'.kept hr)

/-- What REG.BASIC registers (rules R110, R111). -/
theorem registers_regBasic {p : Proto} {s t : State} (hs : s.blk.phase = .build)
    (h : exec (.regBasic p) s = .next t) :
    ∃ ds, t.blk.all = s.blk.all ++ ds ∧ Registers [.basic p] ds := by
  have hone := Registers.one (.basic p)
  rcases exec_regBasic_build p hs with ⟨e, hc, he⟩ | ⟨d, hc, -, he⟩ | ⟨d, first, hc, -, he⟩ <;>
    simp only [registeredBy, hc] at hone <;> rw [exec_blk he h]
  · exact ⟨_, (List.append_nil _).symm, hone⟩
  · exact ⟨_, rfl, hone⟩
  · cases hr : Config.params.collisionRollback with
    | false => exact ⟨_, rfl, hone⟩
    | true =>
      refine ⟨[], (List.append_nil _).symm, List.nil_sublist _, ?_, fun hr' => ?_⟩
      · rw [← hone.ext]
        rfl
      · cases hr.symm.trans hr'

/-- What REG.LOADGRP registers (rule R118). -/
theorem registers_regLoadgrp {g : GroupRecord} {s t : State} (hs : s.blk.phase = .build)
    (h : exec (.regLoadgrp g) s = .next t) :
    ∃ ds, t.blk.all = s.blk.all ++ ds ∧ Registers [.group g] ds := by
  refine ⟨_, ?_, .one _⟩
  rcases exec_regLoadgrp_build g hs with ⟨hg, he⟩ | ⟨hg, r, rfl, he⟩ <;> rw [exec_blk he h]
  · simp [registeredBy, hg]
  · obtain ⟨-, -, mnem, hblk, -⟩ :=
      loadMatches_spec Config.params g g.matchRecords 0 ⟨0, [], s.blk⟩
    simp [registeredBy, hg, hblk]

/-- The command of a member answers, stays in phase `BUILD` and registers the member's descriptors. -/
theorem exec_command (x : CatalogEntry) {s : State} (hs : s.blk.phase = .build) :
    ∃ t ds, exec x.command s = .next t ∧ t.cmds = s.cmds ∧ t.blk.phase = .build ∧
      t.blk.all = s.blk.all ++ ds ∧ Registers [x] ds := by
  obtain ⟨b', st, payload, -, he⟩ := exists_ending x.command s
  cases x with
  | basic p =>
    obtain ⟨ds, hall, hreg⟩ := registers_regBasic hs he
    exact ⟨_, ds, he, rfl, (frame_regBasic he).2.trans hs, hall, hreg⟩
  | group g =>
    obtain ⟨ds, hall, hreg⟩ := registers_regLoadgrp hs he
    exact ⟨_, ds, he, rfl, (frame_regLoadgrp he).2.2.trans hs, hall, hreg⟩

/-- The run of the commands of a catalogue's members and of REG.PUBLISH after them. -/
theorem run_commands (entries : List CatalogEntry) {s : State} (hs : s.blk.phase = .build)
    (hcmds : s.cmds = (bootCommands ⟨entries⟩).map encode) :
    ∃ t ds, core.run (bootCommands ⟨entries⟩).length s = .next t ∧ t.cmds = [] ∧
      t.blk.phase = .published ∧ t.blk.all = s.blk.all ++ ds ∧ Registers entries ds := by
  induction entries generalizing s with
  | nil =>
    have hstep : step s = exec .regPublish { s with cmds := [] } :=
      step_of_decode hcmds (decode_encode _)
    exact ⟨_, [], core_run_next hstep, rfl, rfl, (List.append_nil _).symm, .all []⟩
  | cons x xs ih =>
    have hstep : step s = exec x.command { s with cmds := (bootCommands ⟨xs⟩).map encode } :=
      step_of_decode hcmds (decode_encode _)
    obtain ⟨u, ds, hu, hucmds, huphase, huall, hreg⟩ :=
      exec_command x (s := { s with cmds := (bootCommands ⟨xs⟩).map encode }) hs
    obtain ⟨t, ds', hrun, hcmds', hphase, hall, hreg'⟩ := ih huphase hucmds
    refine ⟨t, ds ++ ds', ?_, hcmds', hphase, ?_, hreg.cons hreg'⟩
    · rw [← hrun]
      exact core_run_next (hstep.trans hu)
    · rw [hall, huall, List.append_assoc]

section
variable (p : Proto) (g : GroupRecord) (xs : List CatalogEntry)

@[simp] theorem protos_basic : Catalog.protos ⟨.basic p :: xs⟩ = p :: Catalog.protos ⟨xs⟩ := rfl
@[simp] theorem protos_group : Catalog.protos ⟨.group g :: xs⟩ = Catalog.protos ⟨xs⟩ := rfl
@[simp] theorem groups_basic : Catalog.groups ⟨.basic p :: xs⟩ = Catalog.groups ⟨xs⟩ := rfl
@[simp] theorem groups_group : Catalog.groups ⟨.group g :: xs⟩ = g :: Catalog.groups ⟨xs⟩ := rfl

/-- The basic descriptor a proto registers. -/
theorem filterMap_asBasic_basic :
    (registeredBy Config.params (.basic p)).filterMap asBasic = (compile p).toOption.toList := by
  rw [registeredBy]
  cases compile p <;> rfl

/-- A proto registers no extended descriptor. -/
theorem filterMap_asExtended_basic :
    (registeredBy Config.params (.basic p)).filterMap asExtended = [] := by
  rw [registeredBy]
  cases compile p <;> rfl

/-- A group registers no basic descriptor. -/
theorem filterMap_asBasic_group :
    (registeredBy Config.params (.group g)).filterMap asBasic = [] := by
  rw [registeredBy]
  split_ifs
  · rfl
  · simp [asBasic]

/-- The extended descriptors a group registers. -/
theorem filterMap_asExtended_group :
    (registeredBy Config.params (.group g)).filterMap asExtended =
      if g.mnemonic.isEmpty then [] else g.matchRecords.filterMap (buildMatch Config.params g) := by
  rw [registeredBy]
  split_ifs
  · rfl
  · rw [List.filterMap_map]
    exact List.filterMap_some

end

/-- The basic descriptors that a catalogue names are those of its well-formed protos. -/
theorem filterMap_asBasic_registeredBy (c : Catalog) :
    (c.entries.flatMap (registeredBy Config.params)).filterMap asBasic =
      c.protos.filterMap fun p => (compile p).toOption := by
  obtain ⟨entries⟩ := c
  induction entries with
  | nil => rfl
  | cons x xs ih =>
    rw [List.flatMap_cons, List.filterMap_append, ih]
    cases x with
    | basic p =>
      rw [filterMap_asBasic_basic, protos_basic, List.filterMap_cons]
      cases (compile p).toOption <;> rfl
    | group g => rw [filterMap_asBasic_group, protos_group, List.nil_append]

/-- The extended descriptors that a catalogue names are the good matches of its named groups. -/
theorem filterMap_asExtended_registeredBy (c : Catalog) :
    (c.entries.flatMap (registeredBy Config.params)).filterMap asExtended =
      (c.groups.filter fun g => !g.mnemonic.isEmpty).flatMap
        fun g => g.matchRecords.filterMap (buildMatch Config.params g) := by
  obtain ⟨entries⟩ := c
  induction entries with
  | nil => rfl
  | cons x xs ih =>
    rw [List.flatMap_cons, List.filterMap_append, ih]
    cases x with
    | basic p => rw [filterMap_asExtended_basic, groups_basic, List.nil_append]
    | group g =>
      rw [filterMap_asExtended_group, groups_group, List.filter_cons]
      cases g.mnemonic.isEmpty <;> rfl

/-- Settles O43: the run registers what the members of the catalogue name, and by the invariant the
basic and the extended list are read off that. -/
theorem bootPublishesWhateverTheCatalogue : Obligations.BootPublishesWhateverTheCatalogue := by
  refine fun c => ⟨bootCommands_basicsFirst c, ?_⟩
  obtain ⟨t, ds, hrun, hcmds, hphase, hall, hreg⟩ := run_commands c.entries (s := bootState c) rfl rfl
  have hinv : t.Inv := blockInv_of_edits (blockInv_reset _) (edits_run hrun)
  replace hall : t.blk.all = ds := hall
  refine ⟨t, hrun, hcmds, hphase, hinv, ?_, ?_⟩
  · rw [hinv.registry.ext, hall, hreg.ext, filterMap_asExtended_registeredBy]
  · rw [hinv.registry.basic, hall, ← filterMap_asBasic_registeredBy]
    cases hr : Config.params.collisionRollback with
    | true => exact hreg.sublist.filterMap _
    | false =>
      rw [← hreg.kept hr]
      exact ⟨rfl, rfl⟩

end Sys2Proof.Machine
end
